-- ==== Sys2Proof/Word.lean ====
section
/-! DEFINITION. The word types of the rv64-emu core block and its fixed constants (spec 00_scope.md R13). -/

namespace Sys2Proof

/-- A `u64`: a register slot, the program counter, a jump target (R13, R23). -/
abbrev Word := BitVec 64

/-- A raw 32-bit instruction word, bit 0 the least significant (R80, R81). -/
abbrev InsnWord := BitVec 32

/-- An 8-bit cell of the byte array or of the permission array (R13, R37). -/
abbrev Byte := BitVec 8

/-- The closed enumeration of 33 register identifiers: member `i` for `i ≤ 31` is general register
`x[i]`, member 32 is the program counter (R24). -/
abbrev RegId := Fin 33

/-- General register 0, "Zero" (R25). -/
abbrev zeroId : RegId := 0

/-- The program counter's slot, index 32 (R24). -/
abbrev pcId : RegId := 32

/-- `IW`, the instruction width in bytes (R13). -/
abbrev insnWidth : Nat := 4

end Sys2Proof
end

