-- ==== Sys2Proof/Config.lean ====
section
/-! DEFINITION. The parameters of the block (spec 00_scope.md R9 to R15), the types they are made of,
and the free value. The parameters are arguments of the model, not state (R21): every definition that
depends on one takes a `Config`, and every claim about it holds for every `Config`. -/

namespace Sys2Proof

/-- The four permission flags (R39). -/
inductive Flag
  | read | write | exec | raw
  deriving DecidableEq, Repr

/-- The order in which the four fetched bytes form a word. The spec fixes `littleEndian` and says it
cannot be switched, and asks for a named configuration field (R54, decision D9, U17). -/
inductive ByteOrder
  | littleEndian | bigEndian
  deriving DecidableEq, Repr

/-- The closed set of handler identifiers; one member (R164). -/
inductive Handler
  | jal
  deriving DecidableEq, Repr

/-- A dispatch entry: "a match mask, an expected masked value, a handler reference, and a display name"
(R160). The handler type is a parameter, so that the matcher has a meaning for every list of entries. -/
structure Entry (H : Type) where
  mask    : InsnWord
  value   : InsnWord
  handler : H
  name    : String
  deriving DecidableEq, Repr

/-- The implementation parameters that are not arguments of `construct`. -/
structure Config where
  /-- `TABLE` (R10, R160). -/
  table : List (Entry Handler)
  /-- `FETCH_CHECK_EXEC`: an instruction fetch requires EXEC as well as READ (R12). -/
  fetchCheckExec : Bool
  /-- The bit position of `PERM_READ` in a permission byte (R14). -/
  readBit : Fin 8
  /-- The bit position of `PERM_WRITE` (R14). -/
  writeBit : Fin 8
  /-- The bit position of `PERM_EXEC` (R14). -/
  execBit : Fin 8
  /-- The bit position of `PERM_RAW` (R14). -/
  rawBit : Fin 8
  /-- The byte order of instruction fetch (R54). -/
  fetchOrder : ByteOrder
  /-- `INIT_MEM`, the byte array after construction (R15, R42). -/
  initMem : Nat → Byte

/-- What the spec requires of the parameters: the four permission flags are "four distinct single-bit
values" (R14) and the fetch is little-endian (R54). -/
abbrev Config.Valid (cfg : Config) : Prop :=
  [cfg.readBit, cfg.writeBit, cfg.execBit, cfg.rawBit].Nodup ∧ cfg.fetchOrder = .littleEndian

/-- FREE VALUE (log entry 3): the content of a byte nothing has stored to. The spec gives none and says
"a model must not fix it to zero" (R42, decision D7). It has no body: nothing can be proved of a value of it. -/
opaque Config.freeInitMem : Nat → Byte

/-- DESIGN CHOICE (log entry 1): the `MEM_SIZE` that `State.reset` is constructed with. The spec makes it
an argument and gives no default (R9); this is the largest size of the spec's own vectors. -/
def Config.memSize : Word := 0x200000

/-- DESIGN CHOICE (log entry 2): the `ENTRY` that `State.reset` is constructed with. The spec makes it an
argument and gives no default (R11); the spec's programs B, D, E and F use it. -/
def Config.entry : Word := 0

end Sys2Proof
end

