-- ==== Sys2Proof/Syntax.lean ====
section
/-! DEFINITION. The instructions: one constructor for each row of spec/opcode_table.json. -/

namespace Sys2Proof

/-- The instructions of `TABLE_SRC` (R95). -/
inductive Instr
  /-- `jal rd, imm` (R96, R200): `rd` the link register, `imm` the decoded J immediate, an `i32` kept as
  its two's-complement pattern (R91). -/
  | jal (rd : RegId) (imm : BitVec 32)
  deriving DecidableEq, Repr

end Sys2Proof
end

