-- ==== Sys2Proof/WellFormed.lean ====
section
/-! DEFINITION. Which terms of `Instr` an instruction word can stand for. -/

namespace Sys2Proof

/-- `rd` names a general register: an instruction field cannot name the program counter (R92). -/
def isGeneral (r : RegId) : Bool := r.val < 32

/-- A J immediate is even: imm[0] is not encoded and is 0 (R88). -/
def isEven (imm : BitVec 32) : Bool := !imm.getLsbD 0

/-- A J immediate lies in -1048576 .. 1048574 (R90). -/
def inJRange (imm : BitVec 32) : Bool := -1048576 ≤ imm.toInt && imm.toInt ≤ 1048574

/-- The well-formed instructions: the operands an encoding admits. -/
def Instr.wf : Instr → Bool
  | .jal rd imm => isGeneral rd && isEven imm && inJRange imm

end Sys2Proof
end

