-- ==== Sys2Proof/Decode.lean ====
section
/-! DEFINITION. The six field decoders (spec 41_field_decoders.md), the masked matcher
(42_dispatch.md), the decoder from words and bytes to `Instr`, and after them the encoders (R100, R149). -/

namespace Sys2Proof

/-! ### Bit primitives (00_scope.md section 5)

The slice `v[hi:lo]` is `v.extractLsb' lo (hi - lo + 1)`: its lowest bit, then its width. -/

/-- `shl_32(p, n)`. -/
def shl32 (p : InsnWord) (n : Nat) : InsnWord := p <<< n

/-- `sar_32(p, n)`, as the pattern of the resulting `i32`. -/
def sar32 (p : InsnWord) (n : Nat) : InsnWord := p.sshiftRight n

/-- A fragment placed with its bit 0 at bit `pos` of a 32-bit pattern, `fragment * 2^pos` (R89).
Fragments of one pattern never overlap, so their sum is their bitwise or. -/
def place {k : Nat} (fragment : BitVec k) (pos : Nat) : InsnWord := fragment.setWidth 32 <<< pos

/-- `reg_id`: member `i` of the register-identifier enumeration, "by direct index"; defined on 5-bit
values only, so it has no failure case, and it never yields the program counter (R147, R92). -/
def regId (i : BitVec 5) : RegId := ⟨i.toNat, Nat.lt_trans i.isLt (by decide)⟩

/-! ### The field records (R83 to R88) -/

/-- The R record (R83). -/
structure RFields where
  funct7 : BitVec 7
  rs2    : RegId
  rs1    : RegId
  funct3 : BitVec 3
  rd     : RegId
  deriving DecidableEq, Repr

/-- The I record (R84); `imm` an `i32` as its pattern (R91). -/
structure IFields where
  imm    : BitVec 32
  rs1    : RegId
  funct3 : BitVec 3
  rd     : RegId
  deriving DecidableEq, Repr

/-- The S record (R85). -/
structure SFields where
  imm    : BitVec 32
  rs2    : RegId
  rs1    : RegId
  funct3 : BitVec 3
  deriving DecidableEq, Repr

/-- The B record (R86, conflict C6). -/
structure BFields where
  imm    : BitVec 32
  rs2    : RegId
  rs1    : RegId
  funct3 : BitVec 3
  deriving DecidableEq, Repr

/-- The U record (R87); `imm` is a `u32` pattern to which no 64-bit meaning is attached (R91). -/
structure UFields where
  imm : BitVec 32
  rd  : RegId
  deriving DecidableEq, Repr

/-- The J record (R88, conflict C6). -/
structure JFields where
  imm : BitVec 32
  rd  : RegId
  deriving DecidableEq, Repr

/-! ### The fixed fields (R82; positions PRESUMED, log entry 7) -/

/-- `rd = w[11:7]`. -/
def rdField (w : InsnWord) : RegId := regId (w.extractLsb' 7 5)

/-- `funct3 = w[14:12]`. -/
def funct3Field (w : InsnWord) : BitVec 3 := w.extractLsb' 12 3

/-- `rs1 = w[19:15]`. -/
def rs1Field (w : InsnWord) : RegId := regId (w.extractLsb' 15 5)

/-- `rs2 = w[24:20]`. -/
def rs2Field (w : InsnWord) : RegId := regId (w.extractLsb' 20 5)

/-- `funct7 = w[31:25]`. -/
def funct7Field (w : InsnWord) : BitVec 7 := w.extractLsb' 25 7

/-! ### Raw immediates, before sign extension (R89; positions PRESUMED, log entry 7) -/

/-- The 12-bit S pattern. -/
def rawS (w : InsnWord) : InsnWord := place (w.extractLsb' 25 7) 5 ||| place (w.extractLsb' 7 5) 0

/-- The 13-bit B pattern, bit 0 zero. -/
def rawB (w : InsnWord) : InsnWord :=
  place (w.extractLsb' 31 1) 12 ||| place (w.extractLsb' 7 1) 11 |||
    place (w.extractLsb' 25 6) 5 ||| place (w.extractLsb' 8 4) 1

/-- The 21-bit J pattern, bit 0 zero. -/
def rawJ (w : InsnWord) : InsnWord :=
  place (w.extractLsb' 31 1) 20 ||| place (w.extractLsb' 12 8) 12 |||
    place (w.extractLsb' 20 1) 11 ||| place (w.extractLsb' 21 10) 1

/-! ### The six decoders -/

/-- `decode_R` (R141). -/
def decodeR (w : InsnWord) : RFields :=
  { funct7 := funct7Field w, rs2 := rs2Field w, rs1 := rs1Field w, funct3 := funct3Field w, rd := rdField w }

/-- `decode_I` (R142). -/
def decodeI (w : InsnWord) : IFields :=
  { imm := sar32 w 20, rs1 := rs1Field w, funct3 := funct3Field w, rd := rdField w }

/-- `decode_S` (R143). -/
def decodeS (w : InsnWord) : SFields :=
  { imm := sar32 (shl32 (rawS w) 20) 20, rs2 := rs2Field w, rs1 := rs1Field w, funct3 := funct3Field w }

/-- `decode_B` (R144). -/
def decodeB (w : InsnWord) : BFields :=
  { imm := sar32 (shl32 (rawB w) 19) 19, rs2 := rs2Field w, rs1 := rs1Field w, funct3 := funct3Field w }

/-- `decode_U` (R145). -/
def decodeU (w : InsnWord) : UFields := { imm := w &&& 0xFFFFF000, rd := rdField w }

/-- `decode_J` (R146). -/
def decodeJ (w : InsnWord) : JFields := { imm := sar32 (shl32 (rawJ w) 11) 11, rd := rdField w }

/-! ### The masked matcher (42_dispatch.md) -/

/-- The word carries the entry's instruction: `w & mask = value` on all 32 bits (R94, R161). -/
def Entry.hits {H : Type} (e : Entry H) (w : InsnWord) : Bool := w &&& e.mask == e.value

/-- The port `decode`: the handler of the first entry that the word hits (R161, R162). -/
def matchWord {H : Type} : List (Entry H) → InsnWord → Option H
  | [], _ => none
  | e :: rest, w => if e.hits w then some e.handler else matchWord rest w

/-- `TABLE_SRC` (R96, R161); mask and value PRESUMED (log entry 7). -/
def tableSrc : List (Entry Handler) :=
  [{ mask := 0x0000007F, value := 0x0000006F, handler := .jal, name := "jal" }]

/-! ### From words and bytes to instructions -/

/-- The instruction that a matched handler reads from the word, by the field shape it needs (R93, R165). -/
def Handler.instr : Handler → InsnWord → Instr
  | .jal, w => .jal (decodeJ w).rd (decodeJ w).imm

/-- The instruction a word encodes under a dispatch table; none when no entry matches (R94, R97). -/
def decodeInstr (table : List (Entry Handler)) (w : InsnWord) : Option Instr :=
  (matchWord table w).map (fun h => h.instr w)

/-- `b0 + 2^8*b1 + 2^16*b2 + ..`, the first byte supplying the low bits (R54). -/
def wordLittle : List Byte → InsnWord
  | [] => 0
  | b :: rest => b.setWidth 32 ||| wordLittle rest <<< 8

/-- The word that fetched bytes form (R54). -/
def wordOfBytes : ByteOrder → List Byte → InsnWord
  | .littleEndian, bs => wordLittle bs
  | .bigEndian, bs => wordLittle bs.reverse

/-- The four bytes of a word as they lie in memory, lowest address first (R54, R81). -/
def bytesOfWord (order : ByteOrder) (w : InsnWord) : List Byte :=
  let little := [w.extractLsb' 0 8, w.extractLsb' 8 8, w.extractLsb' 16 8, w.extractLsb' 24 8]
  match order with
  | .littleEndian => little
  | .bigEndian => little.reverse

/-- Why bytes are no instruction. -/
inductive DecodeError
  /-- Fewer than the four bytes of an instruction word (R80). -/
  | tooFewBytes (given : Nat)
  /-- No dispatch entry matches the word (R97). -/
  | noEntry (w : InsnWord)
  deriving DecidableEq, Repr

/-- Decode the first four bytes and give back the rest; total, rejecting by name. -/
def decodeBytes (table : List (Entry Handler)) (order : ByteOrder) (bs : List Byte) :
    Except DecodeError (Instr × List Byte) :=
  if bs.length < insnWidth then .error (.tooFewBytes bs.length)
  else
    let w := wordOfBytes order (bs.take insnWidth)
    match decodeInstr table w with
    | none => .error (.noEntry w)
    | some i => .ok (i, bs.drop insnWidth)

/-- The 32-bit word whose low `nbits` bits are `w`'s and whose other bits are 0. -/
def tableWord (nbits w : Nat) : InsnWord := BitVec.ofNat 32 (w % 2 ^ nbits)

/-- What the decoder reads from an instruction whose bits are `w`, numbered as spec/opcode_table.json
numbers them, laid out as the hardware stores it. -/
def decodeTableWord (nbits w : Nat) : Option Instr :=
  match decodeBytes tableSrc .littleEndian (bytesOfWord .littleEndian (tableWord nbits w)) with
  | .ok (i, _) => some i
  | .error _ => none

/-! ### Encoders: fields placed by the layouts of R83 to R88 -/

/-- The 5-bit field that names a general register (R92). -/
def regBits (r : RegId) : BitVec 5 := BitVec.ofNat 5 r.val

/-- The R layout (R83). -/
def encodeR (f : RFields) (opcode : BitVec 7) : InsnWord :=
  place f.funct7 25 ||| place (regBits f.rs2) 20 ||| place (regBits f.rs1) 15 |||
    place f.funct3 12 ||| place (regBits f.rd) 7 ||| place opcode 0

/-- The I layout (R84). -/
def encodeI (f : IFields) (opcode : BitVec 7) : InsnWord :=
  place (f.imm.extractLsb' 0 12) 20 ||| place (regBits f.rs1) 15 |||
    place f.funct3 12 ||| place (regBits f.rd) 7 ||| place opcode 0

/-- The S layout (R85). -/
def encodeS (f : SFields) (opcode : BitVec 7) : InsnWord :=
  place (f.imm.extractLsb' 5 7) 25 ||| place (regBits f.rs2) 20 ||| place (regBits f.rs1) 15 |||
    place f.funct3 12 ||| place (f.imm.extractLsb' 0 5) 7 ||| place opcode 0

/-- The B layout (R86). -/
def encodeB (f : BFields) (opcode : BitVec 7) : InsnWord :=
  place (f.imm.extractLsb' 12 1) 31 ||| place (f.imm.extractLsb' 5 6) 25 |||
    place (regBits f.rs2) 20 ||| place (regBits f.rs1) 15 ||| place f.funct3 12 |||
    place (f.imm.extractLsb' 1 4) 8 ||| place (f.imm.extractLsb' 11 1) 7 ||| place opcode 0

/-- The U layout (R87). -/
def encodeU (f : UFields) (opcode : BitVec 7) : InsnWord :=
  place (f.imm.extractLsb' 12 20) 12 ||| place (regBits f.rd) 7 ||| place opcode 0

/-- The J layout (R88, R100). -/
def encodeJ (f : JFields) (opcode : BitVec 7) : InsnWord :=
  place (f.imm.extractLsb' 20 1) 31 ||| place (f.imm.extractLsb' 1 10) 21 |||
    place (f.imm.extractLsb' 11 1) 20 ||| place (f.imm.extractLsb' 12 8) 12 |||
    place (regBits f.rd) 7 ||| place opcode 0

/-- The word of a well-formed instruction (R96, R100). -/
def encode : Instr → InsnWord
  | .jal rd imm => encodeJ { imm := imm, rd := rd } 0x6F

/-- The bytes of a well-formed instruction as they lie in memory (R81). -/
def encodeBytes (i : Instr) : List Byte := bytesOfWord .littleEndian (encode i)

end Sys2Proof
end

