-- ==== Sys2Proof/Machine/State.lean ====
section
/-! DEFINITION. The whole state of one instance (spec 10_state.md R20): the register file with the
program counter as one of its slots, the byte array, the permission array, the run status; and the
faults and refusals. -/

namespace Sys2Proof.Machine

/-- What a permission fault was raised by (R221). -/
inductive Access
  | read | write | fetch
  deriving DecidableEq, Repr

/-- The faults the block produces (R220 to R223); no numeric codes (R225). -/
inductive Fault
  /-- Raised by `read`, `write`, `load_segment` and the fetch when some byte of the requested range lacks
  the flag (R221). Safe: the spec names this fault. -/
  | permission (kind : Access) (address length : Nat)
  /-- Raised by every memory port and by the fetch when `address + length > N` (R222). Safe: the spec
  names this fault. -/
  | bounds (address length : Nat)
  /-- Raised by `step` when no dispatch entry matches the fetched word (R223). Safe: the spec names this
  fault. -/
  | decode (word : InsnWord) (address : Nat)
  deriving DecidableEq, Repr

/-- The reasons the model declines a request. -/
inductive Refusal
  /-- Raised by an arm of `exec` whose instruction has no meaning yet; no arm raises it. Safe. -/
  | notModelled (mnemonic : String)
  /-- Raised by the port `load_segment` on flags outside the eight subsets of READ, WRITE, EXEC, which are
  "outside the interface; a model refuses it" (R115, R224, U12). Safe. -/
  | segmentFlags (flags : Byte)
  deriving DecidableEq, Repr

/-- The run status (R38). -/
inductive Status
  | running
  | halted (f : Fault)
  deriving DecidableEq, Repr

/-- Addressable Memory (R37): `size` is the common length `N` of the two arrays. `cells` lists the bytes
that have been stored; an unlisted byte has never been stored to and its content is `INIT_MEM` (R42, log
entry 3). `perms` lists the permission bytes that differ from `WRITE | RAW`, the value of every
permission byte at reset (R41). Both lists are kept in the canonical form `Memory.wf`. -/
structure Memory where
  size  : Nat
  cells : List Host.Cell
  perms : List Host.Cell
  deriving DecidableEq, Repr

/-- The register file: 33 slots of 64 bits, the program counter in slot 32 (R23, R29). -/
abbrev RegFile := Vector Word 33

/-- The state of one instance (R20). -/
structure State where
  regs   : RegFile
  mem    : Memory
  status : Status
  deriving DecidableEq, Repr

/-- `construct(MEM_SIZE, ENTRY)`, the reset of the whole instance (R175, R250): general registers 0, the
program counter at `ENTRY`, every permission byte `WRITE | RAW`, every byte `INIT_MEM`, running. The
64-bit argument says that `MEM_SIZE < 2^64` (R9). -/
def State.construct (memSize entry : Word) : State :=
  { regs := (Vector.replicate 33 (0 : Word)).set 32 entry
    mem := { size := memSize.toNat, cells := [], perms := [] }
    status := .running }

/-- The machine right after reset: `construct` with the parameters of log entries 1 and 2. -/
def State.reset : State := State.construct Config.memSize Config.entry

end Sys2Proof.Machine
end

