-- ==== Sys2Proof/Machine/Flags.lean ====
section
/-! DEFINITION. The permission-flag computations (spec 10_state.md R39 to R45, 40_memory_permission_ops.md
R113 to R116). The processor has no flags, condition codes or predicates (R34). -/

namespace Sys2Proof.Machine

/-- The bit position of a flag (R14). -/
def flagBit (cfg : Config) : Flag → Fin 8
  | .read => cfg.readBit
  | .write => cfg.writeBit
  | .exec => cfg.execBit
  | .raw => cfg.rawBit

/-- `PERM_READ`, `PERM_WRITE`, `PERM_EXEC`, `PERM_RAW` (R14). -/
def flagMask (cfg : Config) (f : Flag) : Byte := 1#8 <<< (flagBit cfg f).val

/-- `has(p, F)`: `p & PERM_F != 0` (00_scope.md section 5). -/
def has (cfg : Config) (p : Byte) (f : Flag) : Bool := p &&& flagMask cfg f != 0

/-- `WRITE | RAW`, the permission byte of every address at reset (R41). -/
def freshPerm (cfg : Config) : Byte := flagMask cfg .write ||| flagMask cfg .raw

/-- One byte's permission change in a promoting write: gains READ, loses RAW, keeps the rest (R113). -/
def promoted (cfg : Config) (p : Byte) : Byte := (p ||| flagMask cfg .read) &&& ~~~ flagMask cfg .raw

/-- The flags `load_segment` accepts: the eight subsets of READ, WRITE, EXEC (R115). -/
def segmentFlagsOk (cfg : Config) (m : Byte) : Bool :=
  m &&& ~~~ (flagMask cfg .read ||| flagMask cfg .write ||| flagMask cfg .exec) == 0

end Sys2Proof.Machine
end

