-- ==== Sys2Proof/Machine/Ops.lean ====
section
/-! DEFINITION. The named operations over memory and registers: the sparse arrays, the four memory ports
and the fetch (spec 40_memory_permission_ops.md), the register-file ports (43_register_file_ops.md), what
taking a fault does (60_exceptions.md), and the advance-or-redirect of the engine (44_execution_engine.md). -/

namespace Sys2Proof.Machine

/-! ### Sparse arrays: lists of (address, byte) with rising addresses -/

/-- The listed value at an address. -/
def lookup : List Host.Cell → Nat → Option Byte
  | [], _ => none
  | (k, v) :: rest, a => if k = a then some v else lookup rest a

/-- List `v` at `a`, in address order. -/
def insertCell (a : Nat) (v : Byte) : List Host.Cell → List Host.Cell
  | [] => [(a, v)]
  | (k, u) :: rest =>
    if a < k then (a, v) :: (k, u) :: rest
    else if a = k then (a, v) :: rest
    else (k, u) :: insertCell a v rest

/-- Unlist `a`. -/
def eraseCell (a : Nat) (l : List Host.Cell) : List Host.Cell := l.filter (fun c => c.1 ≠ a)

/-- The addresses rise strictly. -/
abbrev Rising (l : List Host.Cell) : Prop := l.Pairwise (fun c d => c.1 < d.1)

/-! ### Single bytes of memory -/

/-- `mem[a]` (R37): the stored byte, or `INIT_MEM(a)` where nothing was stored (R42). -/
def Memory.byte (cfg : Config) (m : Memory) (a : Nat) : Byte := (lookup m.cells a).getD (cfg.initMem a)

/-- `perm[a]` (R37): the listed permission byte, or `WRITE | RAW` (R41). -/
def Memory.perm (cfg : Config) (m : Memory) (a : Nat) : Byte := (lookup m.perms a).getD (freshPerm cfg)

/-- `mem[a] <- v`. -/
def Memory.setByte (m : Memory) (a : Nat) (v : Byte) : Memory := { m with cells := insertCell a v m.cells }

/-- `perm[a] <- p`; an entry that would equal the unlisted value is removed. -/
def Memory.setPerm (cfg : Config) (m : Memory) (a : Nat) (p : Byte) : Memory :=
  { m with perms := if p = freshPerm cfg then eraseCell a m.perms else insertCell a p m.perms }

/-- The canonical form: `N < 2^64` (R9); both lists rise strictly and stay below `N`; no listed permission
byte equals what an unlisted address holds. (An unlisted byte of the byte array has no stored value, so
no listed byte can equal it.) -/
abbrev Memory.wf (cfg : Config) (m : Memory) : Prop :=
  m.size < 2 ^ 64 ∧ Rising m.cells ∧ (∀ c ∈ m.cells, c.1 < m.size) ∧
    Rising m.perms ∧ (∀ c ∈ m.perms, c.1 < m.size ∧ c.2 ≠ freshPerm cfg)

/-! ### Ranges -/

/-- `InBounds(a, n)`: `a + n <= N` on unbounded integers (R110). -/
def Memory.inBounds (m : Memory) (a n : Nat) : Bool := a + n ≤ m.size

/-- Every byte of `[a, a+n)` has the flag. -/
def Memory.allHave (cfg : Config) (m : Memory) (f : Flag) (a n : Nat) : Bool :=
  (List.range n).all (fun i => has cfg (m.perm cfg (a + i)) f)

/-- Some byte of `[a, a+n)` has the flag. -/
def Memory.someHave (cfg : Config) (m : Memory) (f : Flag) (a n : Nat) : Bool :=
  (List.range n).any (fun i => has cfg (m.perm cfg (a + i)) f)

/-- `[mem[a], mem[a+1], .., mem[a+n-1]]`, in address order (R53). -/
def Memory.bytes (cfg : Config) (m : Memory) (a n : Nat) : List Byte :=
  (List.range n).map (fun i => m.byte cfg (a + i))

/-- `mem[a+k] <- bytes[k]` for every `k` (R53). -/
def Memory.store (m : Memory) (a : Nat) : List Byte → Memory
  | [] => m
  | b :: rest => Memory.store (m.setByte a b) (a + 1) rest

/-- Apply `g` to the permission byte of every address of `[a, a+n)`. -/
def Memory.mapPerms (cfg : Config) (g : Byte → Byte) (m : Memory) (a : Nat) : Nat → Memory
  | 0 => m
  | n + 1 => Memory.mapPerms cfg g (m.setPerm cfg a (g (m.perm cfg a))) (a + 1) n

/-- The permission effect of a successful write over `[a, a+n)` (R113). -/
def Memory.promote (cfg : Config) (m : Memory) (a n : Nat) : Memory :=
  if m.someHave cfg .raw a n then m.mapPerms cfg (promoted cfg) a n else m

/-! ### The memory ports -/

/-- The port `read` (R111): bounds before permission (R228). -/
def Memory.read (cfg : Config) (m : Memory) (a n : Nat) : Except Fault (List Byte) :=
  if !m.inBounds a n then .error (.bounds a n)
  else if !m.allHave cfg .read a n then .error (.permission .read a n)
  else .ok (m.bytes cfg a n)

/-- The port `write` (R112): all or nothing, then promotion. -/
def Memory.write (cfg : Config) (m : Memory) (a : Nat) (bs : List Byte) : Except Fault Memory :=
  if !m.inBounds a bs.length then .error (.bounds a bs.length)
  else if !m.allHave cfg .write a bs.length then .error (.permission .write a bs.length)
  else .ok ((m.store a bs).promote cfg a bs.length)

/-- The port `declare_permissions` (R114): every byte of the range takes exactly `mask`. -/
def Memory.declare (cfg : Config) (m : Memory) (a n : Nat) (mask : Byte) : Except Fault Memory :=
  if !m.inBounds a n then .error (.bounds a n)
  else .ok (m.mapPerms cfg (fun _ => mask) a n)

/-- The port `load_segment` (R115): the ordinary write, then the exact mask; flags outside the interface
are refused (R224). -/
def Memory.loadSegment (cfg : Config) (m : Memory) (va : Nat) (flags : Byte) (bs : List Byte) :
    Host.Outcome Memory Fault Refusal :=
  if !segmentFlagsOk cfg flags then .refused (.segmentFlags flags)
  else match m.write cfg va bs with
    | .error f => .fault f
    | .ok m' => match m'.declare cfg va bs.length flags with
      | .error f => .fault f
      | .ok m'' => .next m''

/-- The permission test of a fetch: READ, and EXEC too when `FETCH_CHECK_EXEC` (R121). -/
def Memory.fetchable (cfg : Config) (m : Memory) (a : Nat) : Bool :=
  m.allHave cfg .read a insnWidth && (!cfg.fetchCheckExec || m.allHave cfg .exec a insnWidth)

/-- `Fetch(P)`, the four bytes at the program counter or the fault (R121, R191). -/
def Memory.fetch (cfg : Config) (m : Memory) (a : Nat) : Except Fault (List Byte) :=
  if !m.inBounds a insnWidth then .error (.bounds a insnWidth)
  else if !m.fetchable cfg a then .error (.permission .fetch a insnWidth)
  else .ok (m.bytes cfg a insnWidth)

/-! ### The register-file ports -/

/-- The port `get` (R176). -/
def regGet (rf : RegFile) (i : RegId) : Word := rf[i]

/-- The port `set`: a raw write of any slot, slot 0 included (R177, R26). -/
def regSet (rf : RegFile) (i : RegId) (v : Word) : RegFile := rf.set i v

/-- `write_rd`: the guarded destination write of every handler (R179). -/
def writeRd (rf : RegFile) (rd : RegId) (v : Word) : RegFile := if rd = zeroId then rf else regSet rf rd v

/-- The port `advance_pc`: adds the instruction width to whatever the slot holds, modulo 2^64 (R178). -/
def advancePc (rf : RegFile) : RegFile := regSet rf pcId (regGet rf pcId + 4)

/-- The content of a register of the state. -/
def State.reg (s : State) (i : RegId) : Word := regGet s.regs i

/-- The program counter, slot 32 (R24). -/
def State.pc (s : State) : Word := s.reg pcId

/-! ### Taking a fault -/

/-- Fault entry (R229): "nothing is saved, no mode changes, control goes nowhere: the run status becomes
`Halted(f)`". There is no return from it (R230). -/
def State.halt (s : State) (f : Fault) : State := { s with status := .halted f }

/-! ### Handlers and the engine's last stage -/

/-- A handler as the engine invokes it (R193): the register file, the raw word and the pre-execution
program counter in; the register file and the address execution continues from out. -/
abbrev HandlerFn := RegFile → InsnWord → Word → RegFile × Word

/-- A handler already applied to its word. -/
abbrev Effect := RegFile → Word → RegFile × Word

/-- Advance-or-redirect (R194): the engine advances the program counter when the returned address equals
the pre-execution value, and otherwise writes nothing. -/
def advanceOrRedirect (pre returned : Word) (rf : RegFile) : RegFile :=
  if returned = pre then advancePc rf else rf

/-- Run a handler's effect at the pre-execution program counter and then advance or redirect (R193, R194). -/
def State.execute (s : State) (eff : Effect) : State :=
  { s with regs := advanceOrRedirect s.pc (eff s.regs s.pc).2 (eff s.regs s.pc).1 }

/-! ### The reference parameters -/

/-- The parameters of the spec's own machine: `TABLE_SRC` (R10), `FETCH_CHECK_EXEC = false` (R12), the
default flag values 0x01, 0x02, 0x04, 0x08 (R14), little-endian fetch (R54), `INIT_MEM` free (R15). -/
def reference : Config :=
  { table := tableSrc, fetchCheckExec := false, readBit := 0, writeBit := 1, execBit := 2, rawBit := 3,
    fetchOrder := .littleEndian, initMem := Config.freeInitMem }

end Sys2Proof.Machine
end

