-- ==== Sys2Proof/Machine/Operands.lean ====
section
/-! DEFINITION. The operand computations of instructions (spec 44_execution_engine.md R200). The register
operand is `regId` (R147) and the immediates are the field decoders' (R89), both in Decode.lean. -/

namespace Sys2Proof.Machine

/-- `P +_64 sext_64(imm)`, modulo 2^64 (R200, R32). -/
def jumpTarget (pre : Word) (imm : BitVec 32) : Word := pre + imm.signExtend 64

/-- The link value `P +_64 4` (R200). -/
def linkValue (pre : Word) : Word := pre + 4

end Sys2Proof.Machine
end

