-- ==== Sys2Proof/Machine/Jump.lean ====
section
/-! DEFINITION. Jump-and-link (spec 44_execution_engine.md section 2). -/

namespace Sys2Proof.Machine

/-- The handler of jump-and-link on its decoded fields (R200): the link through the guarded write, then
the target into the program-counter slot; returns the target. -/
def jalEffect (rd : RegId) (imm : BitVec 32) : Effect := fun rf pre =>
  (regSet (writeRd rf rd (linkValue pre)) pcId (jumpTarget pre imm), jumpTarget pre imm)

/-- JAL (R200, R201): the handler, then the engine's advance-or-redirect. -/
def execJal (rd : RegId) (imm : BitVec 32) (s : State) : Host.Outcome State Fault Refusal :=
  .next (s.execute (jalEffect rd imm))

end Sys2Proof.Machine
end

