-- ==== Sys2Proof/Machine/Engine.lean ====
section
/-! DEFINITION. The execution engine (spec 44_execution_engine.md section 1), for every choice of the
parameters: once through `Instr` and `exec`, and once as the spec writes it, over any set of handlers. -/

namespace Sys2Proof.Machine

/-- `step()` (R190) under the parameters `cfg`: fetch, decode, execute, advance-or-redirect. A fault of
the fetch or of the match halts the run and changes nothing else (R191, R192); a halted machine has no
step (R196), and answers with the fault it halted on. -/
def stepWith (cfg : Config) (s : State) : Host.Outcome State Fault Refusal :=
  match s.status with
  | .halted f => .fault f
  | .running =>
    match s.mem.fetch cfg s.pc.toNat with
    | .error f => .next (s.halt f)
    | .ok bs =>
      match decodeInstr cfg.table (wordOfBytes cfg.fetchOrder bs) with
      | none => .next (s.halt (.decode (wordOfBytes cfg.fetchOrder bs) s.pc.toNat))
      | some i => exec i s

/-- `step()` as R190 writes it, for a table over any handler set and a meaning for each handler (R164,
R193). `cfg.table` plays no part. -/
def engineStep {H : Type} (cfg : Config) (table : List (Entry H)) (run : H → HandlerFn) (s : State) :
    Host.Outcome State Fault Refusal :=
  match s.status with
  | .halted f => .fault f
  | .running =>
    match s.mem.fetch cfg s.pc.toNat with
    | .error f => .next (s.halt f)
    | .ok bs =>
      match matchWord table (wordOfBytes cfg.fetchOrder bs) with
      | none => .next (s.halt (.decode (wordOfBytes cfg.fetchOrder bs) s.pc.toNat))
      | some h => .next (s.execute (fun rf pre => run h rf (wordOfBytes cfg.fetchOrder bs) pre))

/-- The meaning of each handler identifier, from the raw word (R164, R200). -/
def runHandler : Handler → HandlerFn
  | .jal => fun rf w pre => jalEffect (decodeJ w).rd (decodeJ w).imm rf pre

/-- The host's image of one instruction placed at the program counter: its bytes stored there with the
permission `READ | EXEC`, as `load_segment` leaves them on fresh memory (R115), in memory that reaches it,
in a machine that runs (log entry 15). -/
def State.withInsn (cfg : Config) (s : State) (w : InsnWord) : State :=
  let a := s.pc.toNat
  let m : Memory := { s.mem with size := max s.mem.size (a + insnWidth) }
  { s with
    mem := (m.store a (bytesOfWord cfg.fetchOrder w)).mapPerms cfg
      (fun _ => flagMask cfg .read ||| flagMask cfg .exec) a insnWidth
    status := .running }

end Sys2Proof.Machine
end

