-- ==== Sys2Proof/Machine/Step.lean ====
section
/-! DEFINITION. The step of the reference machine, and the placing of one instruction for it. -/

namespace Sys2Proof.Machine

/-- One step under the spec's own parameters (R190). -/
def step (s : State) : Host.Outcome State Fault Refusal := stepWith reference s

/-- `s` with the instruction whose bits are `w` stored where `step` fetches next (log entry 15). -/
def State.withFetchWord (s : State) (nbits w : Nat) : State := s.withInsn reference (tableWord nbits w)

end Sys2Proof.Machine
end

