-- ==== Sys2Proof/Machine/Ports.lean ====
section
/-! DEFINITION. The block's transaction ports (spec 00_scope.md R6): each takes its inputs, makes one
indivisible transition of the state, and returns a success value or a fault value. -/

namespace Sys2Proof.Machine

/-- A transaction on one of the ports (R6). -/
inductive Txn
  | construct (memSize entry : Word)
  | read (a n : Nat)
  | write (a : Nat) (bs : List Byte)
  | declarePermissions (a n : Nat) (mask : Byte)
  | loadSegment (va : Nat) (flags : Byte) (bs : List Byte)
  | get (i : RegId)
  | set (i : RegId) (v : Word)
  | advancePc
  | decode (w : InsnWord)
  | decodeR (w : InsnWord)
  | decodeI (w : InsnWord)
  | decodeS (w : InsnWord)
  | decodeB (w : InsnWord)
  | decodeU (w : InsnWord)
  | decodeJ (w : InsnWord)
  | step
  deriving DecidableEq, Repr

/-- A success value. -/
inductive Value
  | done
  | bytes (bs : List Byte)
  | word (v : Word)
  | handler (h : Option Handler)
  | rFields (f : RFields)
  | iFields (f : IFields)
  | sFields (f : SFields)
  | bFields (f : BFields)
  | uFields (f : UFields)
  | jFields (f : JFields)
  deriving DecidableEq, Repr

/-- What a port returns. -/
inductive Answer
  | ok (v : Value)
  | fault (f : Fault)
  | refused (r : Refusal)
  deriving DecidableEq, Repr

/-- The state after a transaction and what the port returned. -/
structure Reply where
  state  : State
  answer : Answer
  deriving DecidableEq, Repr

/-- A port that reads and changes nothing. -/
def State.reply (s : State) (v : Value) : Reply := { state := s, answer := .ok v }

/-- A memory port that changed the memory, or returned its fault and changed nothing (R118). -/
def State.replyMem (s : State) : Except Fault Memory → Reply
  | .ok m => { state := { s with mem := m }, answer := .ok .done }
  | .error f => { state := s, answer := .fault f }

/-- The port `read` on the state (R111). -/
def State.readPort (cfg : Config) (s : State) (a n : Nat) : Reply :=
  match s.mem.read cfg a n with
  | .ok bs => s.reply (.bytes bs)
  | .error f => { state := s, answer := .fault f }

/-- The port `load_segment` on the state (R115). -/
def State.loadPort (cfg : Config) (s : State) (va : Nat) (flags : Byte) (bs : List Byte) : Reply :=
  match s.mem.loadSegment cfg va flags bs with
  | .next m => { state := { s with mem := m }, answer := .ok .done }
  | .fault f => { state := s, answer := .fault f }
  | .refused r => { state := s, answer := .refused r }

/-- The port `step` (R190): a step that ends halted returns its fault; a halted machine makes no step and
keeps its state (R196). -/
def State.stepPort (cfg : Config) (s : State) : Reply :=
  match stepWith cfg s with
  | .next t =>
    match t.status with
    | .running => t.reply .done
    | .halted f => { state := t, answer := .fault f }
  | .fault f => { state := s, answer := .fault f }
  | .refused r => { state := s, answer := .refused r }

/-- One transaction (R6). -/
def transact (cfg : Config) (t : Txn) (s : State) : Reply :=
  match t with
  | .construct n e => (State.construct n e).reply .done
  | .read a n => s.readPort cfg a n
  | .write a bs => s.replyMem (s.mem.write cfg a bs)
  | .declarePermissions a n m => s.replyMem (s.mem.declare cfg a n m)
  | .loadSegment va fl bs => s.loadPort cfg va fl bs
  | .get i => s.reply (.word (s.reg i))
  | .set i v => State.reply { s with regs := regSet s.regs i v } .done
  | .advancePc => State.reply { s with regs := advancePc s.regs } .done
  | .decode w => s.reply (.handler (matchWord cfg.table w))
  | .decodeR w => s.reply (.rFields (Sys2Proof.decodeR w))
  | .decodeI w => s.reply (.iFields (Sys2Proof.decodeI w))
  | .decodeS w => s.reply (.sFields (Sys2Proof.decodeS w))
  | .decodeB w => s.reply (.bFields (Sys2Proof.decodeB w))
  | .decodeU w => s.reply (.uFields (Sys2Proof.decodeU w))
  | .decodeJ w => s.reply (.jFields (Sys2Proof.decodeJ w))
  | .step => s.stepPort cfg

/-- The state after a sequence of transactions, in the order they were issued (R61). -/
def transactAll (cfg : Config) : List Txn → State → State
  | [], s => s
  | t :: rest, s => transactAll cfg rest (transact cfg t s).state

end Sys2Proof.Machine
end

