-- ==== Sys2Proof/Safety.lean ====
section
/-! DEFINITION. The terms claims use: which states a sequence of transactions reaches, the invariant every
step keeps, and the history a read is answered from. -/

namespace Sys2Proof.Machine

/-- The fault that the next step from the state's program counter would end in, if any (R191, R192). -/
def State.pendingFault (cfg : Config) (s : State) : Option Fault :=
  match s.mem.fetch cfg s.pc.toNat with
  | .error f => some f
  | .ok bs =>
    match matchWord cfg.table (wordOfBytes cfg.fetchOrder bs) with
    | none => some (.decode (wordOfBytes cfg.fetchOrder bs) s.pc.toNat)
    | some _ => none

/-- A halted machine's fault is the one its own program counter and memory give: "`pc` holds the address
whose fetch or decode failed and the fault payload repeats it" (R197). -/
def State.HaltExplained (cfg : Config) (s : State) : Prop :=
  ∀ f, s.status = .halted f → s.pendingFault cfg = some f

/-- What every step keeps: memory in canonical form, register 0 zero (R27), and a halt explained by the
state it left (R197). -/
structure State.Inv (cfg : Config) (s : State) : Prop where
  memory : s.mem.wf cfg
  zero   : s.reg zeroId = 0
  halt   : s.HaltExplained cfg

/-- The states that `construct`, followed by transactions of the allowed kinds, reaches (R7, R8). -/
inductive Reached (cfg : Config) (allowed : Txn → Prop) : State → Prop
  | construct (memSize entry : Word) : Reached cfg allowed (State.construct memSize entry)
  | transact {s : State} (t : Txn) (before : Reached cfg allowed s) (ok : allowed t) :
      Reached cfg allowed (transact cfg t s).state

/-- A transaction other than `declare_permissions`. -/
def Txn.notDeclare : Txn → Prop
  | .declarePermissions _ _ _ => False
  | _ => True

/-- A transaction other than a host's `set` of register 0 (R27). -/
def Txn.keepsZero : Txn → Prop
  | .set i _ => i ≠ zeroId
  | _ => True

/-- A transaction other than `construct`. -/
def Txn.notConstruct : Txn → Prop
  | .construct _ _ => False
  | _ => True

/-- A transaction other than `construct` and `step`. -/
def Txn.isHostPort : Txn → Prop
  | .construct _ _ => False
  | .step => False
  | _ => True

/-- The span whose permission bytes a transaction can touch (R37). -/
def Txn.permSpan : Txn → Option (Nat × Nat)
  | .write a bs => some (a, bs.length)
  | .declarePermissions a n _ => some (a, n)
  | .loadSegment va _ bs => some (va, bs.length)
  | _ => none

/-- The permission byte that a transaction leaves where it takes effect (R116, last column). -/
def Txn.nextPerm (cfg : Config) : Txn → Byte → Byte
  | .write _ _, p => promoted cfg p
  | .declarePermissions _ _ mask, _ => mask
  | .loadSegment _ flags _, _ => flags
  | _, p => p

/-- A transaction on the port `write`. -/
def Txn.isWrite : Txn → Prop
  | .write _ _ => True
  | _ => False

/-- The transaction takes effect on the permission byte of `x` (R116): it answered a success, `x` lies in its
span, and, for a `write`, some byte of the span was RAW. -/
def Txn.touchesPerm (cfg : Config) (t : Txn) (s : State) (x : Nat) : Prop :=
  (∃ v, (transact cfg t s).answer = .ok v) ∧
  ∃ a n, t.permSpan = some (a, n) ∧ a ≤ x ∧ x < a + n ∧
    (t.isWrite → ∃ i < n, has cfg (s.mem.perm cfg (a + i)) .raw = true)

/-- The byte a transaction that answered `a` stored at address `x` (R112, R115). -/
def Txn.storedAt (x : Nat) : Txn → Answer → Option Byte
  | .write a bs, .ok _ => if a ≤ x then bs[x - a]? else none
  | .loadSegment a _ bs, .ok _ => if a ≤ x then bs[x - a]? else none
  | _, _ => none

/-- The byte that the latest successful store to `x` in a sequence of transactions put there, or `before`
where there is none (R61). -/
def latestStore (cfg : Config) (x : Nat) : List Txn → State → Byte → Byte
  | [], _, before => before
  | t :: rest, s, before =>
    latestStore cfg x rest (transact cfg t s).state
      ((t.storedAt x (transact cfg t s).answer).getD before)

end Sys2Proof.Machine
end

