-- ==== Sys2Proof/Certificates/Slice0/Obligations.lean ====
section
/-! DEFINITION. The statements for the provers. Each docstring names the rules of the spec it is about;
where a point is a decision of the spec's own (D<n>) or a choice of the model's (log entry), it says so. -/

open Sys2Proof Sys2Proof.Machine

/-! ### Jump-and-link -/

/-- R200 with a non-zero offset: JAL completes, the program counter is `P + offset` modulo 2^64, the link
register holds `P + 4`, and a link to register 0 is dropped. The `rd` field as link register (D14), the
guard (D13) and the wrap (D16) are decisions: log entries 8 and 9. -/
def Obligations.JalJumpsAndLinks : Prop :=
  ∀ (rd : RegId) (imm : BitVec 32) (s : State), (Instr.jal rd imm).wf = true → imm ≠ 0 →
    ∃ t, exec (.jal rd imm) s = .next t ∧
      t.pc = s.pc + imm.signExtend 64 ∧
      (rd ≠ zeroId → t.reg rd = s.pc + 4) ∧
      (rd = zeroId → t.reg zeroId = s.reg zeroId)

/-- R201: JAL with offset 0 completes and falls through to `P + 4`, and still links. -/
def Obligations.JalZeroOffsetFallsThrough : Prop :=
  ∀ (rd : RegId) (s : State), (Instr.jal rd 0).wf = true →
    ∃ t, exec (.jal rd 0) s = .next t ∧
      t.pc = s.pc + 4 ∧
      (rd ≠ zeroId → t.reg rd = s.pc + 4) ∧
      (rd = zeroId → t.reg zeroId = s.reg zeroId)

/-- R200, the frame of JAL in every form: no general register but `rd` changes, none at all when `rd` is
register 0; the run status, the memory size, every byte and every permission byte are unchanged. -/
def Obligations.JalFrame : Prop :=
  ∀ (rd : RegId) (imm : BitVec 32) (s : State), (Instr.jal rd imm).wf = true →
    ∃ t, exec (.jal rd imm) s = .next t ∧
      (∀ r : RegId, r ≠ pcId → (r ≠ rd ∨ rd = zeroId) → t.reg r = s.reg r) ∧
      t.status = s.status ∧
      t.mem.size = s.mem.size ∧
      (∀ (cfg : Config) (a : Nat), t.mem.byte cfg a = s.mem.byte cfg a) ∧
      (∀ (cfg : Config) (a : Nat), t.mem.perm cfg a = s.mem.perm cfg a)

/-- R28, R200: JAL reads no register besides the program counter: two states that agree on it alone agree
after JAL on the program counter and on the link. -/
def Obligations.JalReadsOnlyThePc : Prop :=
  ∀ (rd : RegId) (imm : BitVec 32) (s s' : State), (Instr.jal rd imm).wf = true → s.pc = s'.pc →
    ∃ t t', exec (.jal rd imm) s = .next t ∧ exec (.jal rd imm) s' = .next t' ∧
      t.pc = t'.pc ∧ (rd ≠ zeroId → t.reg rd = t'.reg rd)

/-- R193 (a) to (c), for every handler of the machine: what it returns is what it wrote into the program
counter, and it leaves register 0 alone. -/
def Obligations.HandlersKeepTheirContract : Prop :=
  ∀ (h : Handler) (rf : RegFile) (w : InsnWord) (pre : Word),
    regGet (runHandler h rf w pre).1 pcId = (runHandler h rf w pre).2 ∧
    regGet (runHandler h rf w pre).1 zeroId = regGet rf zeroId

/-! ### The step -/

/-- R190, R193: when the fetched bytes decode to an instruction, a step of the running machine is that
instruction's `exec`; nothing is added around it. Under every choice of the parameters, and for `step`. -/
def Obligations.StepRunsDecodedInstruction : Prop :=
  (∀ (cfg : Config) (s : State) (bs : List Byte) (i : Instr), s.status = .running →
    s.mem.fetch cfg s.pc.toNat = .ok bs →
    decodeInstr cfg.table (wordOfBytes cfg.fetchOrder bs) = some i → stepWith cfg s = exec i s) ∧
  (∀ (s : State) (bs : List Byte) (i : Instr), s.status = .running →
    s.mem.fetch reference s.pc.toNat = .ok bs →
    decodeBytes tableSrc .littleEndian bs = .ok (i, []) → step s = exec i s)

/-- R54, R96, R191, R200: where the four readable bytes at the program counter are those of a well-formed
instruction, a step of the reference machine runs that instruction. -/
def Obligations.EncodedInstructionRuns : Prop :=
  ∀ (i : Instr) (s : State), i.wf = true → s.status = .running →
    s.pc.toNat + 4 ≤ s.mem.size →
    (∀ k < 4, has reference (s.mem.perm reference (s.pc.toNat + k)) .read = true) →
    s.mem.bytes reference s.pc.toNat 4 = encodeBytes i →
    step s = exec i s

/-- R191: the exact condition of a fetch and what it returns, under both settings of `FETCH_CHECK_EXEC`. -/
def Obligations.FetchSucceedsExactlyWhen : Prop :=
  ∀ (cfg : Config) (m : Memory) (a : Nat) (bs : List Byte),
    m.fetch cfg a = .ok bs ↔
      a + 4 ≤ m.size ∧
      (∀ k < 4, has cfg (m.perm cfg (a + k)) .read = true ∧
        (cfg.fetchCheckExec = true → has cfg (m.perm cfg (a + k)) .exec = true)) ∧
      bs = [m.byte cfg a, m.byte cfg (a + 1), m.byte cfg (a + 2), m.byte cfg (a + 3)]

/-- R191, R228, R229: a running machine whose fetch leaves memory halts with the bounds fault; one whose
fetch is in bounds and lacks a permission on some byte halts with the permission fault; only the status
changes. -/
def Obligations.StepHaltsOnFetchFault : Prop :=
  ∀ (cfg : Config) (s : State), s.status = .running →
    (s.mem.size < s.pc.toNat + 4 →
      stepWith cfg s = .next { s with status := .halted (.bounds s.pc.toNat 4) }) ∧
    (s.pc.toNat + 4 ≤ s.mem.size →
      (∃ k < 4, has cfg (s.mem.perm cfg (s.pc.toNat + k)) .read = false ∨
        (cfg.fetchCheckExec = true ∧ has cfg (s.mem.perm cfg (s.pc.toNat + k)) .exec = false)) →
      stepWith cfg s = .next { s with status := .halted (.permission .fetch s.pc.toNat 4) })

/-- R192: a fetched word that matches no dispatch entry halts the run with the decode fault carrying the
word and the address, and nothing else changes. -/
def Obligations.StepHaltsOnUnmatchedWord : Prop :=
  ∀ (cfg : Config) (s : State) (bs : List Byte), s.status = .running →
    s.mem.fetch cfg s.pc.toNat = .ok bs →
    (∀ e ∈ cfg.table, wordOfBytes cfg.fetchOrder bs &&& e.mask ≠ e.value) →
    stepWith cfg s =
      .next { s with status := .halted (.decode (wordOfBytes cfg.fetchOrder bs) s.pc.toNat) }

/-- R38, R196, R230: a halted machine has no step. That `stepWith` answers it with the fault it halted on is
the model's choice (log entry 5); the port `step` leaves the state as it is. -/
def Obligations.HaltedMachineMakesNoStep : Prop :=
  ∀ (cfg : Config) (s : State) (f : Fault), s.status = .halted f →
    stepWith cfg s = .fault f ∧ (transact cfg .step s).state = s

/-- R193, R196: a running machine always has a next state: no step refuses, and no instruction faults. -/
def Obligations.RunningMachineAlwaysSteps : Prop :=
  ∀ (cfg : Config) (s : State), s.status = .running → ∃ t, stepWith cfg s = .next t

/-- R198: faults are precise: a step that ends halted has changed nothing but the status. -/
def Obligations.FaultingStepChangesOnlyStatus : Prop :=
  ∀ (cfg : Config) (s t : State) (f : Fault), stepWith cfg s = .next t → t.status = .halted f →
    t = { s with status := .halted f }

/-- R52, R232: no step changes a byte, a permission byte or the size of memory. -/
def Obligations.StepChangesNoMemory : Prop :=
  ∀ (cfg : Config) (s t : State), stepWith cfg s = .next t → t.mem = s.mem

/-- R28, R200: the only general register a step can change is one other than register 0, which then holds
the link `P + 4`, and it is only one. -/
def Obligations.StepChangesAtMostOneRegister : Prop :=
  ∀ (cfg : Config) (s t : State), stepWith cfg s = .next t →
    (∀ r : RegId, r ≠ pcId → t.reg r ≠ s.reg r → r ≠ zeroId ∧ t.reg r = s.pc + 4) ∧
    (∀ r r' : RegId, r ≠ pcId → r' ≠ pcId → t.reg r ≠ s.reg r → t.reg r' ≠ s.reg r' → r = r')

/-- R195 (a), R255: no instruction can jump to itself: a step that leaves the machine running has moved the
program counter. -/
def Obligations.NoJumpToSelf : Prop :=
  ∀ (cfg : Config) (s t : State), stepWith cfg s = .next t → t.status = .running → t.pc ≠ s.pc

/-- R32, R200 (d): in memory of a legal size, the `P + 4` of a step that completes does not wrap. -/
def Obligations.LinkNeverWraps : Prop :=
  ∀ (cfg : Config) (s t : State), s.mem.size < 2 ^ 64 → stepWith cfg s = .next t → t.status = .running →
    (s.pc + 4).toNat = s.pc.toNat + 4 ∧ s.pc.toNat + 4 ≤ s.mem.size

/-- R27, R197 and the canonical form of memory: the invariant holds after every step from every state that
meets it, under every choice of the parameters, and for `step`. -/
def Obligations.StepKeepsInvariant : Prop :=
  (∀ (cfg : Config) (s t : State), s.Inv cfg → stepWith cfg s = .next t → t.Inv cfg) ∧
  (∀ s t : State, s.Inv reference → step s = .next t → t.Inv reference)

/-- The invariant of `StepKeepsInvariant` holds right after construction, so at reset. -/
def Obligations.ConstructMeetsInvariant : Prop :=
  (∀ (cfg : Config) (memSize entry : Word), (State.construct memSize entry).Inv cfg) ∧
  State.reset.Inv reference

/-- R260: with `FETCH_CHECK_EXEC` false, EXEC has no effect on the run: two states that agree on everything
but the EXEC bits of permission bytes step to the same registers and status, or stop alike. -/
def Obligations.ExecBitIsInertInReference : Prop :=
  ∀ (cfg : Config) (s s' : State), cfg.Valid → cfg.fetchCheckExec = false →
    s.regs = s'.regs → s.status = s'.status → s.mem.size = s'.mem.size →
    (∀ a, s.mem.byte cfg a = s'.mem.byte cfg a) →
    (∀ a i, i < 8 → i ≠ cfg.execBit.val →
      (s.mem.perm cfg a).getLsbD i = (s'.mem.perm cfg a).getLsbD i) →
    (∃ t t', stepWith cfg s = .next t ∧ stepWith cfg s' = .next t' ∧
      t.regs = t'.regs ∧ t.status = t'.status) ∨
    (∃ f, stepWith cfg s = .fault f ∧ stepWith cfg s' = .fault f)

/-! ### The engine over any handlers -/

/-- R164, R190, R193: the step that decodes to an instruction and runs `exec` is the step that R190 writes,
which runs the matched handler on the raw word. -/
def Obligations.StepIsTheHandlerEngine : Prop :=
  ∀ (cfg : Config) (s : State), stepWith cfg s = engineStep cfg cfg.table runHandler s

/-- R194, for every table over every set of handlers: the engine adds 4 to the program counter that the
handler left exactly when the handler returned the pre-execution value, and otherwise leaves what the
handler wrote. -/
def Obligations.EngineAdvancesOrRedirects : Prop :=
  ∀ (H : Type) (cfg : Config) (table : List (Entry H)) (run : H → HandlerFn) (s : State)
    (bs : List Byte) (h : H), s.status = .running → s.mem.fetch cfg s.pc.toNat = .ok bs →
    matchWord table (wordOfBytes cfg.fetchOrder bs) = some h →
    ∀ (rf : RegFile) (returned : Word), run h s.regs (wordOfBytes cfg.fetchOrder bs) s.pc = (rf, returned) →
    ∃ t, engineStep cfg table run s = .next t ∧
      (returned = s.pc → t.pc = regGet rf pcId + 4) ∧
      (returned ≠ s.pc → t.pc = regGet rf pcId) ∧
      (∀ r : RegId, r ≠ pcId → t.reg r = regGet rf r) ∧
      t.mem = s.mem ∧ t.status = .running

/-- R195, R254: what the engine does with a handler that (a) jumps to its own address, (b) returns a new
address without writing it, (c) writes a new address and returns the old one. -/
def Obligations.BrokenHandlersLandWhereR195Says : Prop :=
  ∀ (H : Type) (cfg : Config) (table : List (Entry H)) (run : H → HandlerFn) (s : State)
    (bs : List Byte) (h : H) (rf : RegFile) (returned : Word), s.status = .running →
    s.mem.fetch cfg s.pc.toNat = .ok bs → matchWord table (wordOfBytes cfg.fetchOrder bs) = some h →
    run h s.regs (wordOfBytes cfg.fetchOrder bs) s.pc = (rf, returned) →
    ∃ t, engineStep cfg table run s = .next t ∧
      (returned = s.pc → regGet rf pcId = s.pc → t.pc = s.pc + 4) ∧
      (returned ≠ s.pc → regGet rf pcId = s.pc → t.pc = s.pc) ∧
      (∀ v, returned = s.pc → regGet rf pcId = v → t.pc = v + 4)

/-! ### Reset and the first steps -/

/-- R40: "Construction seeds the program counter to the supplied entry address and zeroes all other
registers." -/
def Obligations.ConstructSeedsRegisters : Prop :=
  ∀ memSize entry : Word,
    (State.construct memSize entry).pc = entry ∧
    (∀ r : RegId, r ≠ pcId → (State.construct memSize entry).reg r = 0)

/-- R41: after construction every permission byte is `WRITE | RAW`, and a read over any non-empty range of
memory fails with a permission fault. That the fault carries the requested range is R111's payload, a
decision of the spec's own (D19, log entry 11). -/
def Obligations.ConstructLeavesNothingReadable : Prop :=
  ∀ (cfg : Config) (memSize entry : Word), cfg.Valid →
    (∀ a < memSize.toNat,
      (State.construct memSize entry).mem.perm cfg a = flagMask cfg .write ||| flagMask cfg .raw) ∧
    (∀ a n, 0 < n → a + n ≤ memSize.toNat →
      (State.construct memSize entry).mem.read cfg a n = .error (.permission .read a n))

/-- R42: a never-written byte that `declare_permissions` makes readable reads as `INIT_MEM`. A statement
about a free value: it holds whatever `INIT_MEM` is. -/
def Obligations.UnwrittenByteReadsAsInitMem : Prop :=
  ∀ (cfg : Config) (memSize entry : Word) (a n : Nat) (mask : Byte), has cfg mask .read = true →
    a + n ≤ memSize.toNat →
    ∃ m, (State.construct memSize entry).mem.declare cfg a n mask = .ok m ∧
      ∃ bs, m.read cfg a n = .ok bs ∧ bs.length = n ∧
        ∀ (k : Nat) (h : k < bs.length), bs[k] = cfg.initMem (a + k)

/-- R251: a step straight after construction, with nothing loaded, halts: by the permission fault where the
entry lies in memory, by the bounds fault where it does not. -/
def Obligations.FirstStepWithNothingLoadedHalts : Prop :=
  ∀ (cfg : Config) (memSize entry : Word), cfg.Valid →
    (entry.toNat + 4 ≤ memSize.toNat →
      stepWith cfg (State.construct memSize entry) =
        .next ((State.construct memSize entry).halt (.permission .fetch entry.toNat 4))) ∧
    (memSize.toNat < entry.toNat + 4 →
      stepWith cfg (State.construct memSize entry) =
        .next ((State.construct memSize entry).halt (.bounds entry.toNat 4)))

/-- R202, R252: loading one jump at the entry address with READ and stepping once leaves the program counter
at the jump's destination (or, for offset 0, at the fall-through), the link written, all else zero. -/
def Obligations.LoadThenExecuteOneJump : Prop :=
  ∀ (memSize entry : Word) (flags : Byte) (rd : RegId) (imm : BitVec 32),
    (Instr.jal rd imm).wf = true → segmentFlagsOk reference flags = true →
    has reference flags .read = true → entry.toNat + 4 ≤ memSize.toNat →
    ∃ t, transactAll reference [.loadSegment entry.toNat flags (encodeBytes (.jal rd imm)), .step]
        (State.construct memSize entry) = t ∧
      t.status = .running ∧
      t.pc = (if imm = 0 then entry + 4 else entry + imm.signExtend 64) ∧
      (rd ≠ zeroId → t.reg rd = entry + 4) ∧
      (∀ r : RegId, r ≠ pcId → (r ≠ rd ∨ rd = zeroId) → t.reg r = 0)

/-- The host's placing of one instruction (log entry 15): the step after it runs exactly that instruction. -/
def Obligations.PlacedWordRuns : Prop :=
  ∀ (s : State) (nbits w : Nat) (i : Instr), decodeTableWord nbits w = some i →
    step (s.withFetchWord nbits w) = exec i (s.withFetchWord nbits w)

/-! ### The memory ports -/

/-- R111: `read` under each of its conditions. The order of the tests (D4) and the payload (D19) are
decisions of the spec's own. -/
def Obligations.ReadReturnsBytesOrFaults : Prop :=
  ∀ (cfg : Config) (s : State) (a n : Nat),
    (s.mem.size < a + n →
      transact cfg (.read a n) s = { state := s, answer := .fault (.bounds a n) }) ∧
    (a + n ≤ s.mem.size → (∃ k < n, has cfg (s.mem.perm cfg (a + k)) .read = false) →
      transact cfg (.read a n) s = { state := s, answer := .fault (.permission .read a n) }) ∧
    (a + n ≤ s.mem.size → (∀ k < n, has cfg (s.mem.perm cfg (a + k)) .read = true) →
      ∃ bs, transact cfg (.read a n) s = { state := s, answer := .ok (.bytes bs) } ∧ bs.length = n ∧
        ∀ (k : Nat) (h : k < bs.length), bs[k] = s.mem.byte cfg (a + k))

/-- R112, R113: `write` under each of its conditions: both faults; and on success every byte and every
permission byte of memory, inside the span and outside it. The order of the tests (D4) and the payloads of
the faults (D19) are decisions of the spec's own (log entry 11). -/
def Obligations.WriteIsAllOrNothingAndPromotes : Prop :=
  ∀ (cfg : Config) (s : State) (a : Nat) (bs : List Byte),
    (s.mem.size < a + bs.length →
      transact cfg (.write a bs) s = { state := s, answer := .fault (.bounds a bs.length) }) ∧
    (a + bs.length ≤ s.mem.size → (∃ k < bs.length, has cfg (s.mem.perm cfg (a + k)) .write = false) →
      transact cfg (.write a bs) s = { state := s, answer := .fault (.permission .write a bs.length) }) ∧
    (a + bs.length ≤ s.mem.size → (∀ k < bs.length, has cfg (s.mem.perm cfg (a + k)) .write = true) →
      ∃ m', transact cfg (.write a bs) s = { state := { s with mem := m' }, answer := .ok .done } ∧
        m'.size = s.mem.size ∧
        (∀ (k : Nat) (h : k < bs.length), m'.byte cfg (a + k) = bs[k]) ∧
        (∀ x, x < a ∨ a + bs.length ≤ x →
          m'.byte cfg x = s.mem.byte cfg x ∧ m'.perm cfg x = s.mem.perm cfg x) ∧
        ((∃ k < bs.length, has cfg (s.mem.perm cfg (a + k)) .raw = true) →
          ∀ k < bs.length, m'.perm cfg (a + k) =
            (s.mem.perm cfg (a + k) ||| flagMask cfg .read) &&& ~~~ flagMask cfg .raw) ∧
        ((∀ k < bs.length, has cfg (s.mem.perm cfg (a + k)) .raw = false) →
          ∀ k < bs.length, m'.perm cfg (a + k) = s.mem.perm cfg (a + k)))

/-- R113, R116: promotion sets READ, clears RAW, and keeps WRITE, EXEC and the four unused bits. -/
def Obligations.PromotionTouchesOnlyReadAndRaw : Prop :=
  ∀ (cfg : Config) (p : Byte), cfg.Valid →
    has cfg (promoted cfg p) .read = true ∧ has cfg (promoted cfg p) .raw = false ∧
    (∀ i < 8, i ≠ cfg.readBit.val → i ≠ cfg.rawBit.val →
      (promoted cfg p).getLsbD i = p.getLsbD i)

/-- R114: `declare_permissions` sets exactly the mask over its range and nothing else, for every 8-bit mask
(D6); out of bounds it faults (D5). -/
def Obligations.DeclareSetsExactlyTheMask : Prop :=
  ∀ (cfg : Config) (s : State) (a n : Nat) (mask : Byte),
    (s.mem.size < a + n →
      transact cfg (.declarePermissions a n mask) s = { state := s, answer := .fault (.bounds a n) }) ∧
    (a + n ≤ s.mem.size →
      ∃ m', transact cfg (.declarePermissions a n mask) s =
          { state := { s with mem := m' }, answer := .ok .done } ∧
        m'.size = s.mem.size ∧
        (∀ x, m'.byte cfg x = s.mem.byte cfg x) ∧
        (∀ x, a ≤ x → x < a + n → m'.perm cfg x = mask) ∧
        (∀ x, x < a ∨ a + n ≤ x → m'.perm cfg x = s.mem.perm cfg x))

/-- R115: `load_segment` under each of its conditions. Refusing other flags is what the spec asks of a model
(U12); the ordinary write path is decision D8. -/
def Obligations.LoadSegmentWritesThenDeclares : Prop :=
  ∀ (cfg : Config) (s : State) (va : Nat) (flags : Byte) (bs : List Byte),
    (segmentFlagsOk cfg flags = false →
      transact cfg (.loadSegment va flags bs) s = { state := s, answer := .refused (.segmentFlags flags) }) ∧
    (segmentFlagsOk cfg flags = true → s.mem.size < va + bs.length →
      transact cfg (.loadSegment va flags bs) s = { state := s, answer := .fault (.bounds va bs.length) }) ∧
    (segmentFlagsOk cfg flags = true → va + bs.length ≤ s.mem.size →
      (∃ k < bs.length, has cfg (s.mem.perm cfg (va + k)) .write = false) →
      transact cfg (.loadSegment va flags bs) s =
        { state := s, answer := .fault (.permission .write va bs.length) }) ∧
    (segmentFlagsOk cfg flags = true → va + bs.length ≤ s.mem.size →
      (∀ k < bs.length, has cfg (s.mem.perm cfg (va + k)) .write = true) →
      ∃ m', transact cfg (.loadSegment va flags bs) s =
          { state := { s with mem := m' }, answer := .ok .done } ∧
        m'.size = s.mem.size ∧
        (∀ (k : Nat) (h : k < bs.length), m'.byte cfg (va + k) = bs[k] ∧ m'.perm cfg (va + k) = flags) ∧
        (∀ x, x < va ∨ va + bs.length ≤ x →
          m'.byte cfg x = s.mem.byte cfg x ∧ m'.perm cfg x = s.mem.perm cfg x))

/-- R117: zero-length ranges succeed and change nothing for `a <= N`, and are bounds faults beyond (D3). -/
def Obligations.ZeroLengthRanges : Prop :=
  ∀ (cfg : Config) (m : Memory) (a : Nat) (mask : Byte),
    (a ≤ m.size → m.read cfg a 0 = .ok [] ∧ m.write cfg a [] = .ok m ∧ m.declare cfg a 0 mask = .ok m) ∧
    (m.size < a → m.read cfg a 0 = .error (.bounds a 0) ∧ m.write cfg a [] = .error (.bounds a 0) ∧
      m.declare cfg a 0 mask = .error (.bounds a 0))

/-- A port other than `step` that returns a fault has changed neither memory nor permissions nor any register
(R118), nor the run status (R229); nor has one that is refused, which only `load_segment` can be: R115, R224,
decision D8 (log entry 13). -/
def Obligations.FailedPortChangesNothing : Prop :=
  ∀ (cfg : Config) (t : Txn) (s : State), t ≠ .step →
    (∀ v, (transact cfg t s).answer ≠ .ok v) → (transact cfg t s).state = s

/-- R119: after a successful write over a non-empty span that held a RAW byte, or all of whose bytes had
READ, reading the span back returns exactly the written bytes. -/
def Obligations.WriteThenReadReturnsTheBytes : Prop :=
  ∀ (cfg : Config) (m m' : Memory) (a : Nat) (bs : List Byte), cfg.Valid → bs ≠ [] →
    m.write cfg a bs = .ok m' →
    ((∃ k < bs.length, has cfg (m.perm cfg (a + k)) .raw = true) ∨
      (∀ k < bs.length, has cfg (m.perm cfg (a + k)) .read = true)) →
    m'.read cfg a bs.length = .ok bs

/-- R59: a second identical write succeeds and leaves every byte and permission byte as the first left it. -/
def Obligations.SecondIdenticalWriteChangesNothing : Prop :=
  ∀ (cfg : Config) (m m' : Memory) (a : Nat) (bs : List Byte), cfg.Valid → m.write cfg a bs = .ok m' →
    ∃ m'', m'.write cfg a bs = .ok m'' ∧ m''.size = m'.size ∧
      ∀ x, m''.byte cfg x = m'.byte cfg x ∧ m''.perm cfg x = m'.perm cfg x

/-- R55, R64: four bytes successfully written, on a span that held a RAW byte or was readable, are what the
next fetch there sees, as the little-endian word. -/
def Obligations.StoreIsSeenByNextFetch : Prop :=
  ∀ (cfg : Config) (m m' : Memory) (a : Nat) (b0 b1 b2 b3 : Byte), cfg.Valid → cfg.fetchCheckExec = false →
    m.write cfg a [b0, b1, b2, b3] = .ok m' →
    ((∃ k < 4, has cfg (m.perm cfg (a + k)) .raw = true) ∨
      (∀ k < 4, has cfg (m.perm cfg (a + k)) .read = true)) →
    ∃ bs, m'.fetch cfg a = .ok bs ∧
      (wordOfBytes cfg.fetchOrder bs).toNat =
        b0.toNat + 2 ^ 8 * b1.toNat + 2 ^ 16 * b2.toNat + 2 ^ 24 * b3.toNat

/-- R116: the permission state machine of one byte over every transaction but `construct`: where the
transaction takes effect the next value is the table's, elsewhere the byte keeps its value. -/
def Obligations.PermissionStateMachine : Prop :=
  ∀ (cfg : Config) (t : Txn) (s : State) (x : Nat), t.notConstruct →
    (t.touchesPerm cfg s x →
      (transact cfg t s).state.mem.perm cfg x = t.nextPerm cfg (s.mem.perm cfg x)) ∧
    (¬ t.touchesPerm cfg s x → (transact cfg t s).state.mem.perm cfg x = s.mem.perm cfg x)

/-- Every port, `step` and `construct` included, keeps memory in its canonical form (log entry 3). -/
def Obligations.PortsKeepCanonicalMemory : Prop :=
  ∀ (cfg : Config) (t : Txn) (s : State), s.mem.wf cfg → (transact cfg t s).state.mem.wf cfg

/-- R120: from a fresh memory and by writes alone, a range is readable exactly when it is in bounds and
every byte of it lies in the span of a write that was in bounds. -/
def Obligations.ReadableExactlyWhenCovered : Prop :=
  ∀ (cfg : Config) (memSize entry : Word) (ws : List (Nat × List Byte)) (a n : Nat), cfg.Valid →
    ((∃ bs, (transactAll cfg (ws.map (fun w => Txn.write w.1 w.2))
        (State.construct memSize entry)).mem.read cfg a n = .ok bs) ↔
      a + n ≤ memSize.toNat ∧
      ∀ x, a ≤ x → x < a + n →
        ∃ w ∈ ws, w.1 + w.2.length ≤ memSize.toNat ∧ w.1 ≤ x ∧ x < w.1 + w.2.length)

/-- R61: after any sequence of transactions, each byte a read returns is the one the latest earlier
successful store to it put there, or `INIT_MEM` if there was none. That a `load_segment` stores by the
ordinary write is decision D8 (log entry 13), and `INIT_MEM` is a free value (log entry 3). -/
def Obligations.ReadReturnsLatestStore : Prop :=
  ∀ (cfg : Config) (memSize entry : Word) (ts : List Txn), (∀ t ∈ ts, t.notConstruct) →
    ∀ (a n : Nat) (bs : List Byte),
      (transactAll cfg ts (State.construct memSize entry)).mem.read cfg a n = .ok bs →
      bs.length = n ∧ ∀ (k : Nat) (h : k < bs.length),
        bs[k] = latestStore cfg (a + k) ts (State.construct memSize entry) (cfg.initMem (a + k))

/-- R44: in every state reached without `declare_permissions`, no byte has both READ and RAW. -/
def Obligations.ReadAndRawStayExclusive : Prop :=
  ∀ (cfg : Config) (s : State), cfg.Valid → Reached cfg Txn.notDeclare s →
    ∀ x, ¬ (has cfg (s.mem.perm cfg x) .read = true ∧ has cfg (s.mem.perm cfg x) .raw = true)

/-- R45: in every state reached without `declare_permissions`, a permission byte is `WRITE | RAW` or a
subset of READ, WRITE, EXEC; with `declare_permissions` every 8-bit value is reached. -/
def Obligations.ReachablePermissionValues : Prop :=
  ∀ cfg : Config, cfg.Valid →
    (∀ s, Reached cfg Txn.notDeclare s →
      ∀ x, s.mem.perm cfg x = freshPerm cfg ∨ segmentFlagsOk cfg (s.mem.perm cfg x) = true) ∧
    (∀ p : Byte, ∃ s, Reached cfg (fun _ => True) s ∧ 0 < s.mem.size ∧ s.mem.perm cfg 0 = p)

/-! ### The host's ports and the rest of the state -/

/-- R27: register 0 is 0 in every state reached from construction by any transactions but a host's `set` of
register 0. -/
def Obligations.ZeroRegisterStaysZero : Prop :=
  ∀ (cfg : Config) (s : State), Reached cfg Txn.keepsZero s → s.reg zeroId = 0

/-- R38: no port but `step` and `construct` reads or changes the run status. -/
def Obligations.HostPortsIgnoreStatus : Prop :=
  ∀ (cfg : Config) (t : Txn) (s : State) (st : Status), t.isHostPort →
    (transact cfg t s).state.status = s.status ∧
    (transact cfg t { s with status := st }).state = { (transact cfg t s).state with status := st } ∧
    (transact cfg t { s with status := st }).answer = (transact cfg t s).answer

/-- R176, R177, R178: the register-file ports: `get` answers the slot, `set` changes exactly one slot, slot 0
and slot 32 included, `advance_pc` adds 4 modulo 2^64 to slot 32 alone; none touches memory. -/
def Obligations.RegisterPorts : Prop :=
  ∀ (cfg : Config) (s : State) (i : RegId) (v : Word),
    (transact cfg (.get i) s).answer = .ok (.word (s.reg i)) ∧ (transact cfg (.get i) s).state = s ∧
    (∀ j, (transact cfg (.set i v) s).state.reg j = if i = j then v else s.reg j) ∧
    (transact cfg (.set i v) s).state.mem = s.mem ∧
    (transact cfg .advancePc s).state.pc = s.pc + 4 ∧
    (∀ j, j ≠ pcId → (transact cfg .advancePc s).state.reg j = s.reg j) ∧
    (transact cfg .advancePc s).state.mem = s.mem

/-- R179: the guarded destination write changes the register it names, and nothing when it names register 0
(the guard's place is decision D13). -/
def Obligations.GuardedWrite : Prop :=
  ∀ (rf : RegFile) (rd r : RegId) (v : Word),
    (rd ≠ zeroId → regGet (writeRd rf rd v) rd = v) ∧
    (r ≠ rd → regGet (writeRd rf rd v) r = regGet rf r) ∧
    writeRd rf zeroId v = rf

/-! ### The matcher -/

/-- R161, R162: `decode` returns the handler of the first entry in table order with `word & mask = value`,
and none exactly when no entry has it; for every list of entries. -/
def Obligations.FirstMatchWins : Prop :=
  ∀ (H : Type) (table : List (Entry H)) (w : InsnWord),
    (∀ h, matchWord table w = some h ↔
      ∃ (before : List (Entry H)) (e : Entry H) (after : List (Entry H)), table = before ++ e :: after ∧
        w &&& e.mask = e.value ∧ e.handler = h ∧ ∀ d ∈ before, w &&& d.mask ≠ d.value) ∧
    (matchWord table w = none ↔ ∀ e ∈ table, w &&& e.mask ≠ e.value)

/-- R161 (c), (d): an entry with a value bit outside its mask is inert, and so is one that repeats an
earlier entry's mask and value. -/
def Obligations.InertEntriesChangeNothing : Prop :=
  ∀ (H : Type) (before after : List (Entry H)) (e : Entry H) (w : InsnWord),
    (e.value &&& ~~~ e.mask ≠ 0 ∨ ∃ d ∈ before, d.mask = e.mask ∧ d.value = e.value) →
    matchWord (before ++ e :: after) w = matchWord (before ++ after) w

/-- R96, R97: with `TABLE_SRC` a word is a JAL exactly when its low seven bits are 0x6F, and matches nothing
otherwise. The opcode is general knowledge (log entry 7). -/
def Obligations.SourceTableHoldsOnlyJal : Prop :=
  ∀ w : InsnWord,
    (w.toNat % 2 ^ 7 = 0x6F → matchWord tableSrc w = some .jal) ∧
    (w.toNat % 2 ^ 7 ≠ 0x6F → matchWord tableSrc w = none)

/-! ### The decoders -/

/-- R84 to R89, R142 to R146: every bit of every decoded immediate, as the bit of the word it is cut from
or copied from by sign extension. The positions are general knowledge (log entry 7). -/
def Obligations.ImmediatesBitByBit : Prop :=
  ∀ (w : InsnWord) (i : Nat), i < 32 →
    ((decodeI w).imm.getLsbD i = if i < 11 then w.getLsbD (i + 20) else w.getLsbD 31) ∧
    ((decodeS w).imm.getLsbD i =
      if i < 5 then w.getLsbD (i + 7) else if i < 11 then w.getLsbD (i + 20) else w.getLsbD 31) ∧
    ((decodeB w).imm.getLsbD i =
      if i = 0 then false else if i < 5 then w.getLsbD (i + 7) else if i < 11 then w.getLsbD (i + 20)
      else if i = 11 then w.getLsbD 7 else w.getLsbD 31) ∧
    ((decodeU w).imm.getLsbD i = if i < 12 then false else w.getLsbD i) ∧
    ((decodeJ w).imm.getLsbD i =
      if i = 0 then false else if i < 11 then w.getLsbD (i + 20) else if i = 11 then w.getLsbD 20
      else if i < 20 then w.getLsbD i else w.getLsbD 31)

/-- R82, R92, R141 to R147: the register and function fields of the six records, as numbers cut from the
word. The positions are general knowledge (log entry 7). -/
def Obligations.FixedFieldsAreCutFromTheWord : Prop :=
  ∀ w : InsnWord,
    ((decodeR w).funct7.toNat = w.toNat / 2 ^ 25 ∧ (decodeR w).rs2.val = w.toNat / 2 ^ 20 % 32 ∧
      (decodeR w).rs1.val = w.toNat / 2 ^ 15 % 32 ∧ (decodeR w).funct3.toNat = w.toNat / 2 ^ 12 % 8 ∧
      (decodeR w).rd.val = w.toNat / 2 ^ 7 % 32) ∧
    ((decodeI w).rs1 = (decodeR w).rs1 ∧ (decodeI w).funct3 = (decodeR w).funct3 ∧
      (decodeI w).rd = (decodeR w).rd) ∧
    ((decodeS w).rs2 = (decodeR w).rs2 ∧ (decodeS w).rs1 = (decodeR w).rs1 ∧
      (decodeS w).funct3 = (decodeR w).funct3) ∧
    ((decodeB w).rs2 = (decodeR w).rs2 ∧ (decodeB w).rs1 = (decodeR w).rs1 ∧
      (decodeB w).funct3 = (decodeR w).funct3) ∧
    (decodeU w).rd = (decodeR w).rd ∧ (decodeJ w).rd = (decodeR w).rd

/-- R90: the ranges of the decoded immediates. -/
def Obligations.ImmediateRanges : Prop :=
  ∀ w : InsnWord,
    (-2048 ≤ (decodeI w).imm.toInt ∧ (decodeI w).imm.toInt ≤ 2047) ∧
    (-2048 ≤ (decodeS w).imm.toInt ∧ (decodeS w).imm.toInt ≤ 2047) ∧
    (-4096 ≤ (decodeB w).imm.toInt ∧ (decodeB w).imm.toInt ≤ 4094 ∧ 2 ∣ (decodeB w).imm.toInt) ∧
    ((decodeU w).imm.toNat ≤ 0xFFFFF000 ∧ 4096 ∣ (decodeU w).imm.toNat) ∧
    (-1048576 ≤ (decodeJ w).imm.toInt ∧ (decodeJ w).imm.toInt ≤ 1048574 ∧ 2 ∣ (decodeJ w).imm.toInt)

/-- R140, R148: the opcode bits reach no output of any decoder. -/
def Obligations.OpcodeBitsReachNoField : Prop :=
  ∀ w w' : InsnWord, w.toNat / 2 ^ 7 = w'.toNat / 2 ^ 7 →
    decodeR w = decodeR w' ∧ decodeI w = decodeI w' ∧ decodeS w = decodeS w' ∧
    decodeB w = decodeB w' ∧ decodeU w = decodeU w' ∧ decodeJ w = decodeJ w'

/-- R149: for each shape, placing fields into a word by its layout and decoding returns the fields, with
every operand at every value the layout admits, whatever the opcode bits. -/
def Obligations.FieldsRoundTrip : Prop :=
  (∀ (f : RFields) (op : BitVec 7), isGeneral f.rs2 = true → isGeneral f.rs1 = true → isGeneral f.rd = true →
    decodeR (encodeR f op) = f) ∧
  (∀ (f : IFields) (op : BitVec 7), isGeneral f.rs1 = true → isGeneral f.rd = true →
    -2048 ≤ f.imm.toInt → f.imm.toInt ≤ 2047 → decodeI (encodeI f op) = f) ∧
  (∀ (f : SFields) (op : BitVec 7), isGeneral f.rs2 = true → isGeneral f.rs1 = true →
    -2048 ≤ f.imm.toInt → f.imm.toInt ≤ 2047 → decodeS (encodeS f op) = f) ∧
  (∀ (f : BFields) (op : BitVec 7), isGeneral f.rs2 = true → isGeneral f.rs1 = true →
    -4096 ≤ f.imm.toInt → f.imm.toInt ≤ 4094 → 2 ∣ f.imm.toInt → decodeB (encodeB f op) = f) ∧
  (∀ (f : UFields) (op : BitVec 7), isGeneral f.rd = true → 4096 ∣ f.imm.toNat →
    decodeU (encodeU f op) = f) ∧
  (∀ (f : JFields) (op : BitVec 7), isGeneral f.rd = true →
    -1048576 ≤ f.imm.toInt → f.imm.toInt ≤ 1048574 → 2 ∣ f.imm.toInt → decodeJ (encodeJ f op) = f)

/-- R96, R100, R149: decoding the bytes of a well-formed instruction gives it back, with the bytes that
follow it untouched. -/
def Obligations.DecodeEncodeAgree : Prop :=
  ∀ (i : Instr) (rest : List Byte), i.wf = true →
    decodeBytes tableSrc .littleEndian (encodeBytes i ++ rest) = .ok (i, rest)

/-- R80, R96, R97, R147: a word that decodes is the encoding of what it decodes to, so each instruction has
one word and no bit of the word is dropped; and under every table, what a word decodes to is well-formed. -/
def Obligations.EncodeDecodeAgree : Prop :=
  (∀ (w : InsnWord) (i : Instr), decodeInstr tableSrc w = some i → encode i = w) ∧
  (∀ (table : List (Entry Handler)) (w : InsnWord) (i : Instr), decodeInstr table w = some i → i.wf = true)

/-- Words written out from R96 decode to the instruction they stand for, and three words that match nothing
do not decode (95_test_vectors.md sections 2.6 and 2.9). -/
def Obligations.SampleWordsDecode : Prop :=
  decodeTableWord 32 0x008000EF = some (.jal 1 8) ∧
  decodeTableWord 32 0xFFDFF06F = some (.jal 0 (-4)) ∧
  decodeTableWord 32 0x001000EF = some (.jal 1 2048) ∧
  decodeTableWord 32 0x000010EF = some (.jal 1 4096) ∧
  decodeTableWord 32 0x800000EF = some (.jal 1 (-1048576)) ∧
  decodeTableWord 32 0x00000000 = none ∧
  decodeTableWord 32 0xFFFFFFFF = none ∧
  decodeTableWord 32 0x00000013 = none
end

