-- ==== Sys2Proof/Laws/Encoding.lean ====
section
/-! SUPPORT. The bits of placed fragments, and register fields. -/

namespace Sys2Proof

theorem place_getLsbD {k : Nat} (f : BitVec k) (pos i : Nat) :
    (place f pos).getLsbD i = (decide (i < 32) && !decide (i < pos) && f.getLsbD (i - pos)) := by
  unfold place
  rw [BitVec.getLsbD_shiftLeft, BitVec.getLsbD_setWidth]
  by_cases h32 : i < 32
  · have : i - pos < 32 := by omega
    simp [h32, this]
  · simp [h32]

theorem place_getElem {k : Nat} (f : BitVec k) (pos i : Nat) (h : i < 32) :
    (place f pos)[i] = (!decide (i < pos) && f.getLsbD (i - pos)) := by
  rw [← BitVec.getLsbD_eq_getElem, place_getLsbD]
  simp [h]

theorem shl32_getLsbD (p : InsnWord) (n i : Nat) :
    (shl32 p n).getLsbD i = (decide (i < 32) && !decide (i < n) && p.getLsbD (i - n)) := by
  rw [shl32, BitVec.getLsbD_shiftLeft]

/-- An arithmetic right shift reads `n` bits up, and above the top repeats bit 31. -/
theorem sar32_getLsbD (p : InsnWord) (n i : Nat) (h : i < 32) :
    (sar32 p n).getLsbD i = if n + i < 32 then p.getLsbD (n + i) else p.getLsbD 31 := by
  rw [sar32, BitVec.getLsbD_sshiftRight, BitVec.msb_eq_getLsbD_last]
  have : ¬ 32 ≤ i := by omega
  simp [this]

/-- A general register survives its 5-bit field (R92, R147). -/
theorem regId_regBits {r : RegId} (h : isGeneral r = true) : regId (regBits r) = r := by
  have : r.val < 32 := by simpa [isGeneral] using h
  apply Fin.ext
  simp [regId, regBits, Nat.mod_eq_of_lt this]

/-- A 5-bit field survives the register it names. -/
theorem regBits_regId (i : BitVec 5) : regBits (regId i) = i := by
  simp [regId, regBits]

/-- A register field never names the program counter (R92, R147). -/
theorem isGeneral_regId (i : BitVec 5) : isGeneral (regId i) = true := by
  exact decide_eq_true i.isLt

/-- A byte in front of a word's upper bytes, as numbers (R54). -/
theorem wordLittle_cons_toNat (b : Byte) (rest : List Byte) (h : (wordLittle rest).toNat < 2 ^ 24) :
    (wordLittle (b :: rest)).toNat = b.toNat + 2 ^ 8 * (wordLittle rest).toNat := by
  have hb : b.toNat < 2 ^ 8 := b.isLt
  simp only [wordLittle, BitVec.toNat_or, BitVec.toNat_setWidth, BitVec.toNat_shiftLeft, Nat.shiftLeft_eq]
  rw [Nat.mod_eq_of_lt (by omega), Nat.mod_eq_of_lt (by omega), Nat.or_comm, Nat.mul_comm,
    ← Nat.two_pow_add_eq_or_of_lt hb, Nat.add_comm]

/-- The word of four bytes, as R54 writes it. -/
theorem wordLittle_four_toNat (b0 b1 b2 b3 : Byte) :
    (wordLittle [b0, b1, b2, b3]).toNat =
      b0.toNat + 2 ^ 8 * b1.toNat + 2 ^ 16 * b2.toNat + 2 ^ 24 * b3.toNat := by
  have h0 : b0.toNat < 2 ^ 8 := b0.isLt
  have h1 : b1.toNat < 2 ^ 8 := b1.isLt
  have h2 : b2.toNat < 2 ^ 8 := b2.isLt
  have h3 : b3.toNat < 2 ^ 8 := b3.isLt
  have e0 : (wordLittle []).toNat = 0 := rfl
  have e3 := wordLittle_cons_toNat b3 [] (by omega)
  have e2 := wordLittle_cons_toNat b2 [b3] (by omega)
  have e1 := wordLittle_cons_toNat b1 [b2, b3] (by omega)
  rw [wordLittle_cons_toNat b0 [b1, b2, b3] (by omega)]
  omega

/-- The matcher takes the first entry that the word hits (R161). -/
theorem matchWord_cons {H : Type} (e : Entry H) (rest : List (Entry H)) (w : InsnWord) :
    matchWord (e :: rest) w = if e.hits w then some e.handler else matchWord rest w := rfl

end Sys2Proof
end

