-- ==== Sys2Proof/Laws/Flags.lean ====
section
/-! SUPPORT. The permission flags are distinct bits: how each flag computation acts on each flag. -/

namespace Sys2Proof.Machine

theorem flagMask_getLsbD (cfg : Config) (f : Flag) (i : Nat) :
    (flagMask cfg f).getLsbD i = decide (i = (flagBit cfg f).val) := by
  unfold flagMask
  have h8 := (flagBit cfg f).isLt
  have e : 1#8 <<< (flagBit cfg f).val = BitVec.twoPow 8 (flagBit cfg f).val := by
    rw [BitVec.twoPow_eq]
  rw [e, BitVec.getLsbD_twoPow]
  by_cases h : i = (flagBit cfg f).val
  · simp [h]
  · simp [h, Ne.symm h]

/-- A flag is set exactly when its bit is. -/
theorem has_eq_getLsbD (cfg : Config) (p : Byte) (f : Flag) :
    has cfg p f = p.getLsbD (flagBit cfg f).val := by
  have hbit : ∀ i, (p &&& flagMask cfg f).getLsbD i =
      (p.getLsbD i && decide (i = (flagBit cfg f).val)) := fun i => by
    rw [BitVec.getLsbD_and, flagMask_getLsbD]
  unfold has
  cases hp : p.getLsbD (flagBit cfg f).val
  · have : p &&& flagMask cfg f = 0 := by
      apply BitVec.eq_of_getLsbD_eq
      intro i _
      rw [hbit]
      by_cases h : i = (flagBit cfg f).val
      · rw [h, hp, Bool.false_and]; exact BitVec.getLsbD_zero.symm
      · simp [h]
    simp [this]
  · have hne : p &&& flagMask cfg f ≠ 0 := fun e => by
      have := hbit (flagBit cfg f).val
      rw [e, hp] at this
      simp at this
    simpa using hne

theorem flagBit_ne {cfg : Config} (h : cfg.Valid) {f g : Flag} (hfg : f ≠ g) :
    (flagBit cfg f).val ≠ (flagBit cfg g).val := by
  have hd := h.1
  simp only [List.nodup_cons, List.mem_cons, List.not_mem_nil, or_false, not_or] at hd
  intro e
  have e' := Fin.ext e
  cases f <;> cases g <;> simp_all [flagBit]

theorem promoted_getLsbD (cfg : Config) (p : Byte) {i : Nat} (hi : i < 8) :
    (promoted cfg p).getLsbD i =
      ((p.getLsbD i || decide (i = (flagBit cfg .read).val)) && !decide (i = (flagBit cfg .raw).val)) := by
  simp only [promoted, BitVec.getLsbD_and, BitVec.getLsbD_or, BitVec.getLsbD_not, flagMask_getLsbD, hi,
    decide_true, Bool.true_and]

/-- What promotion does to each flag (R113). -/
theorem has_promoted {cfg : Config} (h : cfg.Valid) (p : Byte) (f : Flag) :
    has cfg (promoted cfg p) f = ((has cfg p f || decide (f = .read)) && !decide (f = .raw)) := by
  rw [has_eq_getLsbD, has_eq_getLsbD, promoted_getLsbD cfg p (flagBit cfg f).isLt]
  congr 2
  · by_cases hf : f = .read
    · simp [hf]
    · simp [hf, flagBit_ne h hf]
  · by_cases hf : f = .raw
    · simp [hf]
    · simp [hf, flagBit_ne h hf]

/-- The flags of a fresh byte: WRITE and RAW (R41). -/
theorem has_freshPerm {cfg : Config} (h : cfg.Valid) (f : Flag) :
    has cfg (freshPerm cfg) f = (decide (f = .write) || decide (f = .raw)) := by
  rw [has_eq_getLsbD, freshPerm, BitVec.getLsbD_or, flagMask_getLsbD, flagMask_getLsbD]
  congr 1
  · by_cases hf : f = .write
    · simp [hf]
    · simp [hf, flagBit_ne h hf]
  · by_cases hf : f = .raw
    · simp [hf]
    · simp [hf, flagBit_ne h hf]

/-- A mask `load_segment` accepts has no RAW (R115). -/
theorem segmentFlagsOk_no_raw {cfg : Config} (h : cfg.Valid) {m : Byte} (hm : segmentFlagsOk cfg m = true) :
    has cfg m .raw = false := by
  have e : m &&& ~~~ (flagMask cfg .read ||| flagMask cfg .write ||| flagMask cfg .exec) = 0 := by
    simpa [segmentFlagsOk] using hm
  have hb := congrArg (fun v => v.getLsbD (flagBit cfg .raw).val) e
  have h8 := (flagBit cfg .raw).isLt
  simp only [BitVec.getLsbD_and, BitVec.getLsbD_not, BitVec.getLsbD_or, flagMask_getLsbD] at hb
  rw [has_eq_getLsbD]
  simpa [h8, flagBit_ne h (f := .raw) (g := .read) (by decide), flagBit_ne h (f := .raw) (g := .write) (by decide),
    flagBit_ne h (f := .raw) (g := .exec) (by decide)] using hb

end Sys2Proof.Machine
end

