-- ==== Sys2Proof/Laws/Memory.lean ====
section
/-! SUPPORT. The laws of memory: reading back what was put into the sparse arrays, what each memory
operation does to every byte and every permission byte, and that it keeps the canonical form. -/

namespace Sys2Proof.Machine

/-! ### Sparse arrays -/

theorem lookup_insertCell (l : List Host.Cell) (a x : Nat) (v : Byte) :
    lookup (insertCell a v l) x = if x = a then some v else lookup l x := by
  induction l with
  | nil => simp [insertCell, lookup, eq_comm]
  | cons c rest ih =>
    obtain ⟨k, u⟩ := c
    simp only [insertCell]
    split
    · simp only [lookup, eq_comm]
    · split
      · next h => subst h; simp only [lookup, eq_comm]; split <;> rfl
      · next h1 h2 =>
        simp only [lookup, ih]
        by_cases hk : k = x
        · have : x ≠ a := fun e => h2 (e.symm.trans hk.symm)
          simp [hk, this]
        · simp [hk]

theorem lookup_eraseCell (l : List Host.Cell) (a x : Nat) :
    lookup (eraseCell a l) x = if x = a then none else lookup l x := by
  induction l with
  | nil => simp [eraseCell, lookup]
  | cons c rest ih =>
    obtain ⟨k, u⟩ := c
    simp only [eraseCell, List.filter_cons] at ih ⊢
    by_cases hk : k = a
    · subst hk
      simp only [ne_eq, not_true_eq_false, decide_false, Bool.false_eq_true, if_false, ih, lookup]
      by_cases hx : x = k
      · simp [hx]
      · simp [hx, Ne.symm hx]
    · simp only [ne_eq, hk, not_false_eq_true, decide_true, if_true, lookup, ih]
      by_cases hx : k = x
      · have : x ≠ a := fun e => hk (hx.trans e)
        simp [hx, this]
      · simp [hx]

theorem mem_insertCell {l : List Host.Cell} {a : Nat} {v : Byte} {c : Host.Cell}
    (h : c ∈ insertCell a v l) : c = (a, v) ∨ c ∈ l := by
  induction l with
  | nil => simpa [insertCell] using h
  | cons d rest ih =>
    obtain ⟨k, u⟩ := d
    simp only [insertCell] at h
    split at h
    · simpa using h
    · split at h
      · rcases List.mem_cons.mp h with h | h
        · exact .inl h
        · exact .inr (List.mem_cons_of_mem _ h)
      · rcases List.mem_cons.mp h with h | h
        · exact .inr (h ▸ List.mem_cons_self)
        · exact (ih h).imp id (List.mem_cons_of_mem _)

theorem rising_insertCell {l : List Host.Cell} (a : Nat) (v : Byte) (h : Rising l) :
    Rising (insertCell a v l) := by
  induction l with
  | nil => simp [insertCell]
  | cons c rest ih =>
    obtain ⟨k, u⟩ := c
    obtain ⟨hk, hr⟩ := List.pairwise_cons.mp h
    simp only [insertCell]
    split
    · next hlt =>
      refine List.pairwise_cons.mpr ⟨fun d hd => ?_, h⟩
      rcases List.mem_cons.mp hd with rfl | hd
      · exact hlt
      · exact hlt.trans (hk d hd)
    · split
      · next he => subst he; exact List.pairwise_cons.mpr ⟨hk, hr⟩
      · next h1 h2 =>
        refine List.pairwise_cons.mpr ⟨fun d hd => ?_, ih hr⟩
        rcases mem_insertCell hd with rfl | hd
        · show k < a
          omega
        · exact hk d hd

theorem rising_eraseCell {l : List Host.Cell} (a : Nat) (h : Rising l) : Rising (eraseCell a l) :=
  List.Pairwise.filter _ h

/-! ### One byte, one permission byte -/

@[simp] theorem Memory.setByte_size (m : Memory) (a : Nat) (v : Byte) : (m.setByte a v).size = m.size := rfl
@[simp] theorem Memory.setByte_perms (m : Memory) (a : Nat) (v : Byte) : (m.setByte a v).perms = m.perms := rfl
@[simp] theorem Memory.setPerm_size (cfg : Config) (m : Memory) (a : Nat) (p : Byte) :
    (m.setPerm cfg a p).size = m.size := rfl
@[simp] theorem Memory.setPerm_cells (cfg : Config) (m : Memory) (a : Nat) (p : Byte) :
    (m.setPerm cfg a p).cells = m.cells := rfl

theorem Memory.byte_congr {cfg : Config} {m m' : Memory} (h : m'.cells = m.cells) (x : Nat) :
    m'.byte cfg x = m.byte cfg x := by rw [Memory.byte, Memory.byte, h]

theorem Memory.perm_congr {cfg : Config} {m m' : Memory} (h : m'.perms = m.perms) (x : Nat) :
    m'.perm cfg x = m.perm cfg x := by rw [Memory.perm, Memory.perm, h]

theorem Memory.byte_setByte (cfg : Config) (m : Memory) (a x : Nat) (v : Byte) :
    (m.setByte a v).byte cfg x = if x = a then v else m.byte cfg x := by
  simp only [Memory.byte, Memory.setByte, lookup_insertCell]
  split <;> rfl

theorem Memory.perm_setPerm (cfg : Config) (m : Memory) (a x : Nat) (p : Byte) :
    (m.setPerm cfg a p).perm cfg x = if x = a then p else m.perm cfg x := by
  simp only [Memory.perm, Memory.setPerm]
  split
  · next h =>
    rw [lookup_eraseCell]
    split
    · exact h.symm
    · rfl
  · rw [lookup_insertCell]
    split <;> rfl

/-! ### Spans -/

@[simp] theorem Memory.store_size (m : Memory) (a : Nat) (bs : List Byte) : (m.store a bs).size = m.size := by
  induction bs generalizing m a with
  | nil => rfl
  | cons b rest ih => simp [Memory.store, ih]

@[simp] theorem Memory.store_perms (m : Memory) (a : Nat) (bs : List Byte) : (m.store a bs).perms = m.perms := by
  induction bs generalizing m a with
  | nil => rfl
  | cons b rest ih => simp [Memory.store, ih]

theorem Memory.byte_store (cfg : Config) (m : Memory) (a x : Nat) (bs : List Byte) :
    (m.store a bs).byte cfg x = (if a ≤ x then bs[x - a]? else none).getD (m.byte cfg x) := by
  induction bs generalizing m a with
  | nil => simp [Memory.store]
  | cons b rest ih =>
    simp only [Memory.store, ih, Memory.byte_setByte]
    by_cases h : a = x
    · subst h; simp
    · by_cases hle : a ≤ x
      · have hlt : a + 1 ≤ x := by omega
        have hs : x - a = (x - (a + 1)) + 1 := by omega
        rw [if_pos hle, if_pos hlt, if_neg (Ne.symm h), hs, List.getElem?_cons_succ]
      · rw [if_neg hle, if_neg (by omega), if_neg (Ne.symm h)]

theorem Memory.byte_store_in (cfg : Config) (m : Memory) (a k : Nat) (bs : List Byte) (h : k < bs.length) :
    (m.store a bs).byte cfg (a + k) = bs[k] := by
  simp [Memory.byte_store, h]

theorem Memory.byte_store_out (cfg : Config) (m : Memory) (a x : Nat) (bs : List Byte)
    (h : x < a ∨ a + bs.length ≤ x) : (m.store a bs).byte cfg x = m.byte cfg x := by
  rw [Memory.byte_store]
  split
  · rw [List.getElem?_eq_none (by omega)]; rfl
  · rfl

@[simp] theorem Memory.mapPerms_size (cfg : Config) (g : Byte → Byte) (m : Memory) (a n : Nat) :
    (m.mapPerms cfg g a n).size = m.size := by
  induction n generalizing m a with
  | zero => rfl
  | succ n ih => simp [Memory.mapPerms, ih]

@[simp] theorem Memory.mapPerms_cells (cfg : Config) (g : Byte → Byte) (m : Memory) (a n : Nat) :
    (m.mapPerms cfg g a n).cells = m.cells := by
  induction n generalizing m a with
  | zero => rfl
  | succ n ih => simp [Memory.mapPerms, ih]

@[simp] theorem Memory.byte_mapPerms (cfg : Config) (g : Byte → Byte) (m : Memory) (a n x : Nat) :
    (m.mapPerms cfg g a n).byte cfg x = m.byte cfg x :=
  Memory.byte_congr (Memory.mapPerms_cells cfg g m a n) x

@[simp] theorem Memory.perm_store (cfg : Config) (m : Memory) (a x : Nat) (bs : List Byte) :
    (m.store a bs).perm cfg x = m.perm cfg x :=
  Memory.perm_congr (Memory.store_perms m a bs) x

theorem Memory.perm_mapPerms (cfg : Config) (g : Byte → Byte) (m : Memory) (a n x : Nat) :
    (m.mapPerms cfg g a n).perm cfg x = if a ≤ x ∧ x < a + n then g (m.perm cfg x) else m.perm cfg x := by
  induction n generalizing m a with
  | zero => rw [if_neg (by omega)]; rfl
  | succ n ih =>
    simp only [Memory.mapPerms, ih, Memory.perm_setPerm]
    by_cases h : x = a
    · subst h; simp
    · simp only [h, if_false]
      congr 1
      exact propext ⟨fun _ => by omega, fun _ => by omega⟩

/-! ### Ranges -/

theorem Memory.inBounds_iff (m : Memory) (a n : Nat) : m.inBounds a n = true ↔ a + n ≤ m.size := by
  simp [Memory.inBounds]

theorem Memory.allHave_iff (cfg : Config) (m : Memory) (f : Flag) (a n : Nat) :
    m.allHave cfg f a n = true ↔ ∀ i < n, has cfg (m.perm cfg (a + i)) f = true := by
  simp [Memory.allHave]

theorem Memory.someHave_iff (cfg : Config) (m : Memory) (f : Flag) (a n : Nat) :
    m.someHave cfg f a n = true ↔ ∃ i < n, has cfg (m.perm cfg (a + i)) f = true := by
  simp [Memory.someHave]

@[simp] theorem Memory.bytes_length (cfg : Config) (m : Memory) (a n : Nat) :
    (m.bytes cfg a n).length = n := by simp [Memory.bytes]

theorem Memory.bytes_getElem (cfg : Config) (m : Memory) (a n k : Nat) (h : k < (m.bytes cfg a n).length) :
    (m.bytes cfg a n)[k] = m.byte cfg (a + k) := by simp [Memory.bytes]

@[simp] theorem Memory.promote_size (cfg : Config) (m : Memory) (a n : Nat) :
    (m.promote cfg a n).size = m.size := by
  unfold Memory.promote; split <;> simp

@[simp] theorem Memory.byte_promote (cfg : Config) (m : Memory) (a n x : Nat) :
    (m.promote cfg a n).byte cfg x = m.byte cfg x := by
  unfold Memory.promote; split <;> simp

theorem Memory.perm_promote (cfg : Config) (m : Memory) (a n x : Nat) :
    (m.promote cfg a n).perm cfg x =
      if m.someHave cfg .raw a n = true ∧ a ≤ x ∧ x < a + n then promoted cfg (m.perm cfg x)
      else m.perm cfg x := by
  unfold Memory.promote
  split
  · next h => simp [h, Memory.perm_mapPerms]
  · next h => simp [h]

/-! ### What the ports can answer -/

/-- Everything `read` can do (R111). -/
theorem Memory.read_cases (cfg : Config) (m : Memory) (a n : Nat) :
    (m.size < a + n ∧ m.read cfg a n = .error (.bounds a n)) ∨
    (a + n ≤ m.size ∧ m.allHave cfg .read a n = false ∧ m.read cfg a n = .error (.permission .read a n)) ∨
    (a + n ≤ m.size ∧ m.allHave cfg .read a n = true ∧ m.read cfg a n = .ok (m.bytes cfg a n)) := by
  unfold Memory.read
  by_cases hb : a + n ≤ m.size
  · by_cases hp : m.allHave cfg .read a n = true <;> simp [Memory.inBounds, hb, hp]
  · simp [Memory.inBounds, hb]; omega

/-- Everything `write` can do (R112). -/
theorem Memory.write_cases (cfg : Config) (m : Memory) (a : Nat) (bs : List Byte) :
    (m.size < a + bs.length ∧ m.write cfg a bs = .error (.bounds a bs.length)) ∨
    (a + bs.length ≤ m.size ∧ m.allHave cfg .write a bs.length = false ∧
      m.write cfg a bs = .error (.permission .write a bs.length)) ∨
    (a + bs.length ≤ m.size ∧ m.allHave cfg .write a bs.length = true ∧
      m.write cfg a bs = .ok ((m.store a bs).promote cfg a bs.length)) := by
  unfold Memory.write
  by_cases hb : a + bs.length ≤ m.size
  · by_cases hp : m.allHave cfg .write a bs.length = true <;> simp [Memory.inBounds, hb, hp]
  · simp [Memory.inBounds, hb]; omega

/-- Everything `declare_permissions` can do (R114). -/
theorem Memory.declare_cases (cfg : Config) (m : Memory) (a n : Nat) (mask : Byte) :
    (m.size < a + n ∧ m.declare cfg a n mask = .error (.bounds a n)) ∨
    (a + n ≤ m.size ∧ m.declare cfg a n mask = .ok (m.mapPerms cfg (fun _ => mask) a n)) := by
  unfold Memory.declare
  by_cases hb : a + n ≤ m.size
  · simp [Memory.inBounds, hb]
  · simp [Memory.inBounds, hb]; omega

/-- Everything `Fetch` can do (R121, R191). -/
theorem Memory.fetch_cases (cfg : Config) (m : Memory) (a : Nat) :
    (m.size < a + 4 ∧ m.fetch cfg a = .error (.bounds a 4)) ∨
    (a + 4 ≤ m.size ∧ m.fetchable cfg a = false ∧ m.fetch cfg a = .error (.permission .fetch a 4)) ∨
    (a + 4 ≤ m.size ∧ m.fetchable cfg a = true ∧ m.fetch cfg a = .ok (m.bytes cfg a 4)) := by
  unfold Memory.fetch
  by_cases hb : a + 4 ≤ m.size
  · by_cases hp : m.fetchable cfg a = true <;> simp [Memory.inBounds, hb, hp]
  · simp [Memory.inBounds, hb]; omega

/-- A successful write: its conditions, and every byte and permission byte after it (R112, R113). -/
theorem Memory.write_ok {cfg : Config} {m m' : Memory} {a : Nat} {bs : List Byte}
    (h : m.write cfg a bs = .ok m') :
    a + bs.length ≤ m.size ∧ m.allHave cfg .write a bs.length = true ∧ m'.size = m.size ∧
    (∀ x, m'.byte cfg x = (if a ≤ x then bs[x - a]? else none).getD (m.byte cfg x)) ∧
    (∀ x, m'.perm cfg x =
      if m.someHave cfg .raw a bs.length = true ∧ a ≤ x ∧ x < a + bs.length then promoted cfg (m.perm cfg x)
      else m.perm cfg x) := by
  obtain ⟨_, e⟩ | ⟨_, _, e⟩ | ⟨hb, hp, e⟩ := Memory.write_cases cfg m a bs <;> rw [h] at e
  · cases e
  · cases e
  · cases e
    refine ⟨hb, hp, by simp, fun x => by simp [Memory.byte_store], fun x => ?_⟩
    have hs : (m.store a bs).someHave cfg .raw a bs.length = m.someHave cfg .raw a bs.length := by
      simp [Memory.someHave]
    simp [Memory.perm_promote, hs]

/-- A successful `declare_permissions` (R114). -/
theorem Memory.declare_ok {cfg : Config} {m m' : Memory} {a n : Nat} {mask : Byte}
    (h : m.declare cfg a n mask = .ok m') :
    a + n ≤ m.size ∧ m'.size = m.size ∧ (∀ x, m'.byte cfg x = m.byte cfg x) ∧
    (∀ x, m'.perm cfg x = if a ≤ x ∧ x < a + n then mask else m.perm cfg x) := by
  obtain ⟨_, e⟩ | ⟨hb, e⟩ := Memory.declare_cases cfg m a n mask <;> rw [h] at e
  · cases e
  · cases e
    exact ⟨hb, by simp, fun x => by simp, fun x => by simp [Memory.perm_mapPerms]⟩

/-- A successful `load_segment`: an ordinary write succeeded and the mask was then declared (R115). -/
theorem Memory.loadSegment_next {cfg : Config} {m m' : Memory} {va : Nat} {fl : Byte} {bs : List Byte}
    (h : m.loadSegment cfg va fl bs = .next m') :
    segmentFlagsOk cfg fl = true ∧ ∃ m1, m.write cfg va bs = .ok m1 ∧ m1.declare cfg va bs.length fl = .ok m' := by
  unfold Memory.loadSegment at h
  split at h
  · cases h
  · next hf =>
    split at h
    · cases h
    · next m1 hw =>
      split at h
      · cases h
      · next m2 hd => cases h; exact ⟨by simpa using hf, m1, hw, hd⟩

/-- Once the write of a segment has succeeded, its `declare_permissions` cannot fault (R115). -/
theorem Memory.loadSegment_of_write {cfg : Config} {m m1 : Memory} {va : Nat} {fl : Byte} {bs : List Byte}
    (hf : segmentFlagsOk cfg fl = true) (hw : m.write cfg va bs = .ok m1) :
    m.loadSegment cfg va fl bs = .next (m1.mapPerms cfg (fun _ => fl) va bs.length) := by
  obtain ⟨hb, -, hs, -, -⟩ := Memory.write_ok hw
  obtain ⟨h, -⟩ | ⟨-, e⟩ := Memory.declare_cases cfg m1 va bs.length fl
  · omega
  · simp [Memory.loadSegment, hf, hw, e]

/-! ### The canonical form -/

theorem Memory.wf_setByte {cfg : Config} {m : Memory} (a : Nat) (v : Byte) (h : m.wf cfg) (ha : a < m.size) :
    (m.setByte a v).wf cfg := by
  obtain ⟨h1, h2, h3, h4, h5⟩ := h
  refine ⟨h1, rising_insertCell a v h2, fun c hc => ?_, h4, h5⟩
  rcases mem_insertCell hc with rfl | hc
  · exact ha
  · exact h3 c hc

theorem Memory.wf_setPerm {cfg : Config} {m : Memory} (a : Nat) (p : Byte) (h : m.wf cfg) (ha : a < m.size) :
    (m.setPerm cfg a p).wf cfg := by
  obtain ⟨h1, h2, h3, h4, h5⟩ := h
  unfold Memory.setPerm
  by_cases hp : p = freshPerm cfg
  · rw [if_pos hp]
    exact ⟨h1, h2, h3, rising_eraseCell a h4, fun c hc => h5 c (List.mem_of_mem_filter hc)⟩
  · rw [if_neg hp]
    refine ⟨h1, h2, h3, rising_insertCell a p h4, fun c hc => ?_⟩
    rcases mem_insertCell hc with rfl | hc
    · exact ⟨ha, hp⟩
    · exact h5 c hc

theorem Memory.wf_store {cfg : Config} {m : Memory} (a : Nat) (bs : List Byte) (h : m.wf cfg)
    (ha : a + bs.length ≤ m.size) : (m.store a bs).wf cfg := by
  induction bs generalizing m a with
  | nil => exact h
  | cons b rest ih =>
    simp only [List.length_cons] at ha
    exact ih (a + 1) (Memory.wf_setByte a b h (by omega)) (by rw [Memory.setByte_size]; omega)

theorem Memory.wf_mapPerms {cfg : Config} (g : Byte → Byte) {m : Memory} (a n : Nat) (h : m.wf cfg)
    (ha : a + n ≤ m.size) : (m.mapPerms cfg g a n).wf cfg := by
  induction n generalizing m a with
  | zero => exact h
  | succ n ih =>
    exact ih (a + 1) (Memory.wf_setPerm a _ h (by omega)) (by rw [Memory.setPerm_size]; omega)

theorem Memory.wf_promote {cfg : Config} {m : Memory} (a n : Nat) (h : m.wf cfg) (ha : a + n ≤ m.size) :
    (m.promote cfg a n).wf cfg := by
  unfold Memory.promote
  split
  · exact Memory.wf_mapPerms _ a n h ha
  · exact h

theorem Memory.write_keeps_wf {cfg : Config} {m m' : Memory} {a : Nat} {bs : List Byte} (h : m.wf cfg)
    (hw : m.write cfg a bs = .ok m') : m'.wf cfg := by
  obtain ⟨_, e⟩ | ⟨_, _, e⟩ | ⟨hb, _, e⟩ := Memory.write_cases cfg m a bs <;> rw [hw] at e
  · cases e
  · cases e
  · cases e
    exact Memory.wf_promote a _ (Memory.wf_store a bs h hb) (by simpa using hb)

theorem Memory.declare_keeps_wf {cfg : Config} {m m' : Memory} {a n : Nat} {mask : Byte} (h : m.wf cfg)
    (hd : m.declare cfg a n mask = .ok m') : m'.wf cfg := by
  obtain ⟨_, e⟩ | ⟨hb, e⟩ := Memory.declare_cases cfg m a n mask <;> rw [hd] at e
  · cases e
  · cases e
    exact Memory.wf_mapPerms _ a n h hb

theorem Memory.loadSegment_keeps_wf {cfg : Config} {m m' : Memory} {va : Nat} {fl : Byte} {bs : List Byte}
    (h : m.wf cfg) (hl : m.loadSegment cfg va fl bs = .next m') : m'.wf cfg := by
  obtain ⟨-, m1, hw, hd⟩ := Memory.loadSegment_next hl
  exact Memory.declare_keeps_wf (Memory.write_keeps_wf h hw) hd

theorem State.construct_wf (cfg : Config) (n e : Word) : (State.construct n e).mem.wf cfg :=
  ⟨n.isLt, List.Pairwise.nil, fun _ h => absurd h List.not_mem_nil, List.Pairwise.nil,
    fun _ h => absurd h List.not_mem_nil⟩

@[simp] theorem State.construct_byte (cfg : Config) (n e : Word) (x : Nat) :
    (State.construct n e).mem.byte cfg x = cfg.initMem x := rfl

@[simp] theorem State.construct_perm (cfg : Config) (n e : Word) (x : Nat) :
    (State.construct n e).mem.perm cfg x = freshPerm cfg := rfl

end Sys2Proof.Machine
end

