-- ==== Sys2Proof/Laws/PerInstr.lean ====
section
/-! SUPPORT. Facts about every instruction as syntax, one lemma a constructor. -/

/-- The encoded word carries its row's fixed bits, whatever the operands: `w & 0x7F = 0x6F` for JAL (R96). -/
def Sys2Proof.Laws.EncodedOpcode.Statement : Sys2Proof.Instr → Prop
  | .jal rd imm => Sys2Proof.encode (.jal rd imm) &&& 0x7F = 0x6F

theorem Sys2Proof.Laws.EncodedOpcode.jal (rd : Sys2Proof.RegId) (imm : BitVec 32) :
    Sys2Proof.Laws.EncodedOpcode.Statement (.jal rd imm) := by
  unfold Sys2Proof.Laws.EncodedOpcode.Statement Sys2Proof.encode Sys2Proof.encodeJ
  apply BitVec.eq_of_getLsbD_eq
  intro i hi
  interval_cases i <;> simp [Sys2Proof.place_getElem]
end

