-- ==== Sys2Proof/Laws/State.lean ====
section
/-! SUPPORT. The small lemmas of the state: one for each field of each update, and the register file's laws. -/

namespace Sys2Proof.Machine

@[simp] theorem State.halt_regs (s : State) (f : Fault) : (s.halt f).regs = s.regs := rfl
@[simp] theorem State.halt_mem (s : State) (f : Fault) : (s.halt f).mem = s.mem := rfl
@[simp] theorem State.halt_status (s : State) (f : Fault) : (s.halt f).status = .halted f := rfl
@[simp] theorem State.halt_reg (s : State) (f : Fault) (i : RegId) : (s.halt f).reg i = s.reg i := rfl
@[simp] theorem State.halt_pc (s : State) (f : Fault) : (s.halt f).pc = s.pc := rfl

@[simp] theorem State.execute_mem (s : State) (e : Effect) : (s.execute e).mem = s.mem := rfl
@[simp] theorem State.execute_status (s : State) (e : Effect) : (s.execute e).status = s.status := rfl
theorem State.execute_regs (s : State) (e : Effect) :
    (s.execute e).regs = advanceOrRedirect s.pc (e s.regs s.pc).2 (e s.regs s.pc).1 := rfl
theorem State.execute_reg (s : State) (e : Effect) (i : RegId) :
    (s.execute e).reg i = regGet (advanceOrRedirect s.pc (e s.regs s.pc).2 (e s.regs s.pc).1) i := rfl
theorem State.execute_pc (s : State) (e : Effect) : (s.execute e).pc = (s.execute e).reg pcId := rfl

@[simp] theorem State.reply_state (s : State) (v : Value) : (s.reply v).state = s := rfl
@[simp] theorem State.reply_answer (s : State) (v : Value) : (s.reply v).answer = .ok v := rfl

@[simp] theorem State.construct_status (n e : Word) : (State.construct n e).status = .running := rfl
@[simp] theorem State.construct_size (n e : Word) : (State.construct n e).mem.size = n.toNat := rfl
@[simp] theorem State.construct_cells (n e : Word) : (State.construct n e).mem.cells = [] := rfl
@[simp] theorem State.construct_perms (n e : Word) : (State.construct n e).mem.perms = [] := rfl

@[simp] theorem regGet_regSet_same (rf : RegFile) (i : RegId) (v : Word) : regGet (regSet rf i v) i = v := by
  simp [regGet, regSet]

theorem regGet_regSet_ne (rf : RegFile) {i j : RegId} (v : Word) (h : i ≠ j) :
    regGet (regSet rf i v) j = regGet rf j := by
  have hv : i.val ≠ j.val := fun e => h (Fin.ext e)
  simp [regGet, regSet, Vector.getElem_set_ne, hv]

theorem regGet_regSet (rf : RegFile) (i j : RegId) (v : Word) :
    regGet (regSet rf i v) j = if i = j then v else regGet rf j := by
  split
  · next h => subst h; simp
  · next h => exact regGet_regSet_ne rf v h

theorem regGet_writeRd (rf : RegFile) (rd j : RegId) (v : Word) :
    regGet (writeRd rf rd v) j = if rd ≠ zeroId ∧ rd = j then v else regGet rf j := by
  unfold writeRd
  split
  · next h => simp [h]
  · next h => simp [h, regGet_regSet]

theorem regGet_advancePc (rf : RegFile) (j : RegId) :
    regGet (advancePc rf) j = if pcId = j then regGet rf pcId + 4 else regGet rf j :=
  regGet_regSet rf pcId j _

theorem regGet_advanceOrRedirect_ne (p t : Word) (rf : RegFile) {j : RegId} (h : pcId ≠ j) :
    regGet (advanceOrRedirect p t rf) j = regGet rf j := by
  unfold advanceOrRedirect
  split
  · rw [regGet_advancePc, if_neg h]
  · rfl

theorem regGet_advanceOrRedirect_pc (p t : Word) (rf : RegFile) :
    regGet (advanceOrRedirect p t rf) pcId = if t = p then regGet rf pcId + 4 else regGet rf pcId := by
  unfold advanceOrRedirect
  split
  · rw [regGet_advancePc, if_pos rfl]
  · rfl

theorem State.construct_reg (n e : Word) (i : RegId) :
    (State.construct n e).reg i = if i = pcId then e else 0 := by
  by_cases h : i = pcId
  · subst h; simp [State.reg, regGet, State.construct]
  · have hv : (32 : Nat) ≠ i.val := fun he => h (Fin.ext he.symm)
    simp [State.reg, regGet, State.construct, Vector.getElem_set_ne, hv, h]

@[simp] theorem State.construct_pc (n e : Word) : (State.construct n e).pc = e :=
  (State.construct_reg n e pcId).trans (if_pos rfl)

end Sys2Proof.Machine
end

