-- ==== Sys2Proof/Laws/Step.lean ====
section
/-! SUPPORT. What an instruction and a step can do, said once. -/

namespace Sys2Proof.Machine

theorem execJal_eq (rd : RegId) (imm : BitVec 32) (s : State) :
    execJal rd imm s = .next (s.execute (jalEffect rd imm)) := rfl

/-- Every instruction answers a next state with memory and status as they were. -/
theorem exec_next (i : Instr) (s : State) :
    ∃ t, exec i s = .next t ∧ t.mem = s.mem ∧ t.status = s.status := by
  cases i with
  | jal rd imm => exact ⟨_, rfl, rfl, rfl⟩

/-- A general register after JAL (R200). -/
theorem jal_reg (rd : RegId) (imm : BitVec 32) (s : State) {r : RegId} (hr : r ≠ pcId) :
    (s.execute (jalEffect rd imm)).reg r = if rd ≠ zeroId ∧ rd = r then s.pc + 4 else s.reg r := by
  rw [State.execute_reg, regGet_advanceOrRedirect_ne _ _ _ (Ne.symm hr)]
  simp only [jalEffect, regGet_regSet_ne _ _ (Ne.symm hr), regGet_writeRd, linkValue]
  rfl

/-- The program counter after JAL, before the target is compared (R194, R200). -/
theorem jal_pc (rd : RegId) (imm : BitVec 32) (s : State) :
    (s.execute (jalEffect rd imm)).pc =
      if jumpTarget s.pc imm = s.pc then jumpTarget s.pc imm + 4 else jumpTarget s.pc imm := by
  rw [State.execute_pc, State.execute_reg, regGet_advanceOrRedirect_pc]
  simp [jalEffect]

theorem signExtend_eq_zero_iff (imm : BitVec 32) : imm.signExtend 64 = 0 ↔ imm = 0 := by
  constructor
  · intro h
    apply BitVec.eq_of_toInt_eq
    have := congrArg BitVec.toInt h
    rwa [BitVec.toInt_signExtend_of_le (by decide)] at this
  · rintro rfl; decide

/-- The target is the instruction's own address exactly when the offset is 0 (R201). -/
theorem jumpTarget_eq_self_iff (p : Word) (imm : BitVec 32) : jumpTarget p imm = p ↔ imm = 0 := by
  rw [jumpTarget, ← signExtend_eq_zero_iff]
  constructor
  · intro h
    have : p + imm.signExtend 64 = p + 0 := by simpa using h
    exact BitVec.add_right_inj p |>.mp this
  · intro h; simp [h]

/-- Everything a step can do (R190): a halted machine answers its fault; a running one halts on the fetch's
fault, halts on an unmatched word, or runs the decoded instruction. -/
theorem stepWith_cases (cfg : Config) (s : State) :
    (∃ f, s.status = .halted f ∧ stepWith cfg s = .fault f) ∨
    (∃ f, s.status = .running ∧ s.mem.fetch cfg s.pc.toNat = .error f ∧ stepWith cfg s = .next (s.halt f)) ∨
    (∃ bs, s.status = .running ∧ s.mem.fetch cfg s.pc.toNat = .ok bs ∧
      decodeInstr cfg.table (wordOfBytes cfg.fetchOrder bs) = none ∧
      stepWith cfg s = .next (s.halt (.decode (wordOfBytes cfg.fetchOrder bs) s.pc.toNat))) ∨
    (∃ bs i, s.status = .running ∧ s.mem.fetch cfg s.pc.toNat = .ok bs ∧
      decodeInstr cfg.table (wordOfBytes cfg.fetchOrder bs) = some i ∧ stepWith cfg s = exec i s) := by
  unfold stepWith
  cases hs : s.status with
  | halted f => exact .inl ⟨f, rfl, rfl⟩
  | running =>
    cases hf : s.mem.fetch cfg s.pc.toNat with
    | error f => exact .inr (.inl ⟨f, rfl, rfl, rfl⟩)
    | ok bs =>
      cases hd : decodeInstr cfg.table (wordOfBytes cfg.fetchOrder bs) with
      | none => exact .inr (.inr (.inl ⟨bs, rfl, rfl, hd, by simp [hd]⟩))
      | some i => exact .inr (.inr (.inr ⟨bs, i, rfl, rfl, hd, by simp [hd]⟩))

end Sys2Proof.Machine
end

