-- ==== Sys2Proof/Laws/Ports.lean ====
section
/-! SUPPORT. What one transaction can do to one byte and to one permission byte, said once for all ports. -/

namespace Sys2Proof.Machine

/-- The port `step` leaves memory alone (R52). -/
theorem transact_step_mem (cfg : Config) (s : State) : (transact cfg .step s).state.mem = s.mem := by
  simp only [transact, State.stepPort]
  split
  · next u hu =>
      have : u.mem = s.mem := by
        obtain ⟨g, h, e⟩ | ⟨g, _, _, h⟩ | ⟨bs, _, _, _, h⟩ | ⟨bs, i, hs, _, _, h⟩ := stepWith_cases cfg s
        · rw [hu] at e; cases e
        · rw [hu] at h; cases h; rfl
        · rw [hu] at h; cases h; rfl
        · obtain ⟨v, hv, hm, hstat⟩ := exec_next i s
          rw [hu, hv] at h; cases h; exact hm
      split <;> simpa using this
  · rfl
  · rfl

/-- A byte after any transaction but `construct`: the byte it stored there, or the byte before. -/
theorem transact_byte (cfg : Config) (t : Txn) (s : State) (x : Nat) (hc : t.notConstruct) :
   (transact cfg t s).state.mem.byte cfg x = (t.storedAt x (transact cfg t s).answer).getD (s.mem.byte cfg x) := by
  cases t
  case construct => exact hc.elim
  case step => rw [transact_step_mem]; simp [Txn.storedAt]
  case write a bs =>
    simp only [transact]
    cases hw : s.mem.write cfg a bs with
    | error f => simp [State.replyMem, Txn.storedAt]
    | ok m =>
      obtain ⟨_, _, _, hb, hp⟩ := Memory.write_ok hw
      simp [State.replyMem, Txn.storedAt, hb]
  case declarePermissions a n mask =>
    simp only [transact]
    cases hw : s.mem.declare cfg a n mask with
    | error f => simp [State.replyMem, Txn.storedAt]
    | ok m =>
      obtain ⟨_, _, hb, hp⟩ := Memory.declare_ok hw
      simp [State.replyMem, Txn.storedAt, hb]
  case loadSegment a fl bs =>
    simp only [transact, State.loadPort]
    cases hw : s.mem.loadSegment cfg a fl bs with
    | fault f => simp [Txn.storedAt]
    | refused f => simp [Txn.storedAt]
    | next m =>
      obtain ⟨_, m1, hw1, hd⟩ := Memory.loadSegment_next hw
      obtain ⟨_, _, hb2, hp⟩ := Memory.declare_ok hd
      obtain ⟨_, _, _, hb, hp1⟩ := Memory.write_ok hw1
      simp [Txn.storedAt, hb2, hb]
  case read => simp only [transact, State.readPort]; split <;> simp [Txn.storedAt]
  all_goals rfl

/-- A permission byte after any transaction but `declare_permissions` (R116). -/
theorem transact_perm_cases (cfg : Config) (t : Txn) (s : State) (x : Nat) (hc : t.notDeclare) :
   (transact cfg t s).state.mem.perm cfg x = freshPerm cfg ∨ (transact cfg t s).state.mem.perm cfg x = s.mem.perm cfg x ∨ 
   (transact cfg t s).state.mem.perm cfg x = promoted cfg (s.mem.perm cfg x) ∨ 
    segmentFlagsOk cfg ((transact cfg t s).state.mem.perm cfg x) = true := by
  cases t
  case construct => exact .inl rfl
  case step => rw [transact_step_mem]; simp 
  case write a bs =>
    simp only [transact]
    cases hw : s.mem.write cfg a bs with
    | error f => exact .inr (.inl rfl)
    | ok m =>
      obtain ⟨_, _, _, hb, hp⟩ := Memory.write_ok hw
      simp only [State.replyMem, hp]; split <;> simp
  case declarePermissions a n mask => exact hc.elim
  case loadSegment a fl bs =>
    simp only [transact, State.loadPort]
    cases hw : s.mem.loadSegment cfg a fl bs with
    | fault f => exact .inr (.inl rfl)
    | refused f => exact .inr (.inl rfl)
    | next m =>
      obtain ⟨hf, m1, hw1, hd⟩ := Memory.loadSegment_next hw
      obtain ⟨_, _, hb2, hp⟩ := Memory.declare_ok hd
      obtain ⟨_, _, _, hb, hp1⟩ := Memory.write_ok hw1
      simp only [hp, hp1]
      by_cases hx : a ≤ x ∧ x < a + bs.length
      · simp [hx, hf]
      · simp [hx]
  case read => simp only [transact, State.readPort]; split <;> exact .inr (.inl rfl)
  all_goals exact .inr (.inl rfl)

/-- The flags `load_segment` accepts, bit by bit (R115). -/
theorem segmentFlagsOk_iff (cfg : Config) (m : Byte) : segmentFlagsOk cfg m = true ↔ ∀ i < 8, m.getLsbD i = true → i = cfg.readBit.val ∨ i = cfg.writeBit.val ∨ i = cfg.execBit.val := by
  have e : segmentFlagsOk cfg m = true ↔ m &&& ~~~ (flagMask cfg .read ||| flagMask cfg .write ||| flagMask cfg .exec) = 0 := by
    simp [segmentFlagsOk]
  rw [e]
  constructor
  · intro h i hi hm
    have := congrArg (fun v => v.getLsbD i) h
    simp only [BitVec.getLsbD_and, BitVec.getLsbD_not, BitVec.getLsbD_or, flagMask_getLsbD, flagBit, hm, hi] at this
    simp at this
    by_contra hc; simp only [not_or] at hc; simp_all
  · intro h
    apply BitVec.eq_of_getLsbD_eq
    intro i hi
    simp only [BitVec.getLsbD_and, BitVec.getLsbD_not, BitVec.getLsbD_or, flagMask_getLsbD, flagBit]
    cases hm : m.getLsbD i
    · simp
    · have := h i hi hm
      simp [hi]; rcases this with h | h | h <;> simp [h]

end Sys2Proof.Machine
end

