-- ==== Sys2Proof/Tests/Slice0.lean ====
section
/-! SUPPORT. Tests with results taken from the spec (95_test_vectors.md unless another file is named), and
for every obligation with hypotheses a concrete state and operands that meet them. -/

namespace Sys2Proof.Tests

open Sys2Proof Sys2Proof.Machine

/-! ### WellFormed: one ill-formed term for each check -/

theorem test_wf_accepts : (Instr.jal 31 1048574).wf = true ∧ (Instr.jal 0 (-1048576)).wf = true := by decide
theorem test_wf_refuses_pc_as_link : (Instr.jal 32 8).wf = false := by decide
theorem test_wf_refuses_odd_offset : (Instr.jal 1 7).wf = false := by decide
theorem test_wf_refuses_far_offset :
    (Instr.jal 1 1048576).wf = false ∧ (Instr.jal 1 (-1048578)).wf = false := by decide

/-! ### Decoders (sections 2.1 to 2.7) -/

theorem test_decodeR_vectors :
    decodeR 0x40B50533 = { funct7 := 32, rs2 := 11, rs1 := 10, funct3 := 0, rd := 10 } ∧
    decodeR 0x01F0F0B3 = { funct7 := 0, rs2 := 31, rs1 := 1, funct3 := 7, rd := 1 } ∧
    decodeR 0xFE000000 = { funct7 := 127, rs2 := 0, rs1 := 0, funct3 := 0, rd := 0 } ∧
    decodeR 0x01F00000 = { funct7 := 0, rs2 := 31, rs1 := 0, funct3 := 0, rd := 0 } ∧
    decodeR 0x000F8000 = { funct7 := 0, rs2 := 0, rs1 := 31, funct3 := 0, rd := 0 } ∧
    decodeR 0x0000007F = { funct7 := 0, rs2 := 0, rs1 := 0, funct3 := 0, rd := 0 } := by decide

theorem test_decodeI_vectors :
    decodeI 0x7FF30293 = { imm := 2047, rs1 := 6, funct3 := 0, rd := 5 } ∧
    decodeI 0x80030293 = { imm := -2048, rs1 := 6, funct3 := 0, rd := 5 } ∧
    decodeI 0x00130293 = { imm := 1, rs1 := 6, funct3 := 0, rd := 5 } ∧
    decodeI 0x7FFFFFFF = { imm := 2047, rs1 := 31, funct3 := 7, rd := 31 } := by decide

theorem test_decodeS_vectors :
    decodeS 0x7E813FA3 = { imm := 2047, rs2 := 8, rs1 := 2, funct3 := 3 } ∧
    decodeS 0x80813023 = { imm := -2048, rs2 := 8, rs1 := 2, funct3 := 3 } ∧
    decodeS 0x00813FA3 = { imm := 31, rs2 := 8, rs1 := 2, funct3 := 3 } ∧
    decodeS 0x02813023 = { imm := 32, rs2 := 8, rs1 := 2, funct3 := 3 } ∧
    decodeS 0xFE813023 = { imm := -32, rs2 := 8, rs1 := 2, funct3 := 3 } := by decide

theorem test_decodeB_vectors :
    decodeB 0x7EB51FE3 = { imm := 4094, rs2 := 11, rs1 := 10, funct3 := 1 } ∧
    decodeB 0x80B51063 = { imm := -4096, rs2 := 11, rs1 := 10, funct3 := 1 } ∧
    decodeB 0x00B51163 = { imm := 2, rs2 := 11, rs1 := 10, funct3 := 1 } ∧
    decodeB 0x00B510E3 = { imm := 2048, rs2 := 11, rs1 := 10, funct3 := 1 } ∧
    decodeB 0x00B51863 = { imm := 16, rs2 := 11, rs1 := 10, funct3 := 1 } := by decide

theorem test_decodeU_vectors :
    decodeU 0x12345037 = { imm := 0x12345000, rd := 0 } ∧
    decodeU 0x800002B7 = { imm := 0x80000000, rd := 5 } ∧
    decodeU 0x00000FFF = { imm := 0, rd := 31 } := by decide

theorem test_decodeJ_vectors :
    decodeJ 0xFFDFF06F = { imm := -4, rd := 0 } ∧ decodeJ 0x7FFFF0EF = { imm := 1048574, rd := 1 } ∧
    decodeJ 0x800000EF = { imm := -1048576, rd := 1 } ∧ decodeJ 0x00200FEF = { imm := 2, rd := 31 } ∧
    decodeJ 0x001000EF = { imm := 2048, rd := 1 } ∧ decodeJ 0x000010EF = { imm := 4096, rd := 1 } := by decide

theorem test_one_word_six_decoders :
    (decodeI 0xFFDFF06F).imm = -3 ∧ (decodeS 0xFFDFF06F).imm = -32 ∧ (decodeB 0xFFDFF06F).imm = -2080 ∧
    (decodeU 0xFFDFF06F).imm = 0xFFDFF000 ∧ (decodeJ 0xFFDFF06F).imm = -4 := by decide

/-! ### Words, bytes and the opcode map (sections 2.6 and 2.9) -/

theorem test_jal_words_decode :
    decodeTableWord 32 0xFF9FF16F = some (.jal 2 (-8)) ∧ decodeTableWord 32 0x00C0006F = some (.jal 0 12) ∧
    decodeTableWord 32 0xFFFFFFEF = some (.jal 31 (-2)) ∧ decodeTableWord 7 0x6F = some (.jal 0 0) := by decide

theorem test_words_that_match_nothing :
    decodeTableWord 32 0x0000006E = none ∧ decodeTableWord 32 0x00008067 = none := by decide

theorem test_jal_words_encode :
    encode (.jal 1 8) = 0x008000EF ∧ encode (.jal 0 (-40)) = 0xFD9FF06F ∧
    encode (.jal 1 1048574) = 0x7FFFF0EF ∧ encode (.jal 1 2048) = 0x001000EF := by decide

theorem test_jal_bytes : encodeBytes (.jal 2 (-8)) = [0x6F, 0xF1, 0x9F, 0xFF] := by decide

theorem test_too_few_bytes : decodeBytes tableSrc .littleEndian [0xEF, 0, 0x80] = .error (.tooFewBytes 3) := by
  rfl

/-- The two-entry table of S6 (section 1.1), handlers 1 and 2. -/
def overlap : List (Entry Nat) :=
  [{ mask := 0x707F, value := 0x63, handler := 1, name := "e1" },
   { mask := 0x7F, value := 0x63, handler := 2, name := "e2" }]

theorem test_first_match :
    matchWord overlap 0x00B50063 = some 1 ∧ matchWord overlap 0x00B51063 = some 2 ∧
    matchWord overlap.reverse 0x00B50063 = some 2 ∧ matchWord overlap 0x00B50013 = none := by decide

/-! ### Memory ports (sections 1.1, 2.11 and program D) -/

/-- A fresh instance of `n` bytes after some transactions. -/
def after (n : Word) (ts : List Txn) : State := transactAll reference ts (State.construct n 0)

theorem test_write_promotes_its_span :
    (transact reference (.read 0 5) (after 16 [.write 0 [1, 2, 3, 4, 5]])).answer = .ok (.bytes [1, 2, 3, 4, 5]) ∧
    (after 16 [.write 0 [1, 2, 3, 4, 5]]).mem.perm reference 4 = 0x03 ∧
    (after 16 [.write 0 [1, 2, 3, 4, 5]]).mem.perm reference 5 = 0x0A := by decide

theorem test_partial_coverage_is_unreadable :
    (transact reference (.read 3 4) (after 16 [.write 0 [1, 2, 3, 4, 5]])).answer =
      .fault (.permission .read 3 4) := by decide

theorem test_write_gate_is_all_or_nothing :
    transact reference (.write 2 [7, 7, 7]) (after 16 [.write 0 [1, 2, 3, 4, 5], .declarePermissions 0 4 0x01]) =
      { state := after 16 [.write 0 [1, 2, 3, 4, 5], .declarePermissions 0 4 0x01],
        answer := .fault (.permission .write 2 3) } := by decide

theorem test_promotion_reaches_write_only_neighbour :
    (after 16 [.declarePermissions 8 2 0x02, .write 9 [5, 6]]).mem.perms =
      [(8, 0x02), (9, 0x03), (10, 0x03)] := by decide

theorem test_promotion_keeps_exec :
    (after 16 [.declarePermissions 0 1 0x06, .write 0 [1, 2]]).mem.perms = [(0, 0x07), (1, 0x03)] := by decide

theorem test_write_only_byte_stays_unreadable :
    (transact reference (.read 4 2) (after 16 [.declarePermissions 4 2 0x02, .write 4 [1, 2]])).answer =
      .fault (.permission .read 4 2) := by decide

theorem test_bounds_before_permission :
    (transact reference (.read 15 2) (after 16 [])).answer = .fault (.bounds 15 2) ∧
    (transact reference (.read (2 ^ 64 - 1) 2) (after 16 [])).answer = .fault (.bounds (2 ^ 64 - 1) 2) := by decide

theorem test_zero_length_at_the_end :
    (transact reference (.read 16 0) (after 16 [])).answer = .ok (.bytes []) ∧
    (transact reference (.read 17 0) (after 16 [])).answer = .fault (.bounds 17 0) ∧
    (transact reference (.read 0 0) (after 0 [])).answer = .ok (.bytes []) := by decide

/-- INIT_MEM is exposed by a READ mask, RAW or not (section 2.11, D6). -/
theorem test_never_written_byte_is_free :
    (transact reference (.read 0 1) (after 16 [.declarePermissions 0 1 0x09])).answer =
      .ok (.bytes [Config.freeInitMem 0]) := rfl

theorem test_load_over_read_only_segment :
    (transact reference (.loadSegment 1 0x03 [9]) (after 16 [.loadSegment 0 0x01 [1, 2]])).answer =
      .fault (.permission .write 1 1) := by decide

theorem test_load_refuses_raw_mask :
    (transact reference (.loadSegment 0 0x08 [1]) (after 16 [])).answer = .refused (.segmentFlags 0x08) := by decide

/-- Declaring the fresh value removes the entries. -/
theorem test_canonical_permissions :
    after 16 [.declarePermissions 3 2 0x01, .declarePermissions 3 2 0x0A] = after 16 [] := by decide

/-! ### Register file (section 2.10) -/

theorem test_set_is_raw_and_write_rd_is_guarded :
    (transact reference (.set 0 7) (after 16 [])).state.reg 0 = 7 ∧
    regGet (writeRd (after 16 []).regs 0 7) 0 = 0 ∧ regGet (writeRd (after 16 []).regs 31 7) 31 = 7 := by decide

theorem test_advance_pc_wraps :
    (transact reference .advancePc (State.construct 16 0xFFFFFFFFFFFFFFFE)).state.pc = 2 := by decide

/-! ### Step and JAL (section 2.12) -/

/-- `load_segment(P, flags, word)` into a fresh instance of `n` bytes with `ENTRY = P`. -/
def placed (n p : Word) (flags : Byte) (w : InsnWord) : State :=
  transactAll reference [.loadSegment p.toNat flags (bytesOfWord .littleEndian w)] (State.construct n p)

/-- The state that the port `step` leaves. -/
def stepped (s : State) : State := (transact reference .step s).state

theorem test_jal_links_and_jumps :
    (stepped (placed 0x40 0x10 0x05 0x008000EF)).pc = 0x18 ∧
    (stepped (placed 0x40 0x10 0x05 0x008000EF)).reg 1 = 0x14 := by decide

theorem test_jal_offset_zero_falls_through :
    (stepped (placed 0x40 0x20 0x05 0x000002EF)).pc = 0x24 ∧
    (stepped (placed 0x40 0x20 0x05 0x000002EF)).reg 5 = 0x24 := by decide

theorem test_jal_back_past_zero_drops_link :
    (stepped (placed 0x40 0 0x05 0xFFDFF06F)).pc = 0xFFFFFFFFFFFFFFFC ∧
    (stepped (placed 0x40 0 0x05 0xFFDFF06F)).reg 0 = 0 := by decide

theorem test_jal_at_odd_pc :
    (stepped (placed 0x40 0x11 0x05 0x008000EF)).pc = 0x19 ∧
    (stepped (placed 0x40 0x11 0x05 0x008000EF)).reg 1 = 0x15 := by decide

theorem test_unmatched_word_halts :
    stepped (placed 0x40 0x10 0x05 0xFFFFFFFF) =
      (placed 0x40 0x10 0x05 0xFFFFFFFF).halt (.decode 0xFFFFFFFF 0x10) := by decide

theorem test_exec_without_read_is_not_fetchable :
    (stepped (placed 16 0 0x04 0x008000EF)).status = .halted (.permission .fetch 0 4) := by decide

theorem test_first_step_out_of_bounds : (stepped (State.construct 8 6)).status = .halted (.bounds 6 4) := by decide

/-- The hardened fetch (R12). -/
def checked : Config := { reference with fetchCheckExec := true }

theorem test_fetch_check_exec :
    (stepped (placed 64 0x10 0x01 0x008000EF)).pc = 0x18 ∧
    (transact checked .step (placed 64 0x10 0x01 0x008000EF)).answer = .fault (.permission .fetch 0x10 4) ∧
    (transact checked .step (placed 64 0x10 0x05 0x008000EF)).state.pc = 0x18 := by decide

/-- A store to code is seen by the next fetch (program E, actions 2 and 3). -/
theorem test_store_to_code :
    (stepped (transact reference (.write 0 [0xEF, 2, 0x80, 0]) (placed 0x20 0 0x03 0xFF5FF06F)).state).reg 5 = 4 := by
  decide

theorem test_placed_word_runs_first :
    (step (State.reset.withFetchWord 32 0x008000EF)) =
      exec (.jal 1 8) (State.reset.withFetchWord 32 0x008000EF) := by rfl

/-! ### Witnesses: states and operands that meet the hypotheses of each obligation -/

/-- `jal x1, 8` at 0x10 in 64 bytes, READ and EXEC (program A). -/
def progA : State := placed 64 0x10 0x05 0x008000EF

theorem reference_valid : reference.Valid := by decide

theorem test_witness_JalJumpsAndLinks :
    ((Instr.jal 31 1048574).wf = true ∧ (1048574 : BitVec 32) ≠ 0 ∧ (31 : RegId) ≠ zeroId) ∧
    ((Instr.jal 0 (-1048576)).wf = true ∧ (-1048576 : BitVec 32) ≠ 0 ∧ (0 : RegId) = zeroId) := by decide

theorem test_witness_JalZeroOffsetFallsThrough :
    ((Instr.jal 31 0).wf = true ∧ (31 : RegId) ≠ zeroId) ∧ (Instr.jal 0 0).wf = true := by decide

theorem test_witness_JalFrame :
    ((Instr.jal 31 8).wf = true ∧ (1 : RegId) ≠ pcId ∧ (1 : RegId) ≠ 31) ∧
    ((Instr.jal 0 8).wf = true ∧ (0 : RegId) ≠ pcId ∧ (0 : RegId) = zeroId) := by decide

theorem test_witness_JalReadsOnlyThePc :
    (Instr.jal 1 8).wf = true ∧ progA.pc = (transact reference (.set 7 9) progA).state.pc ∧
    progA ≠ (transact reference (.set 7 9) progA).state := by decide

theorem test_witness_StepRunsDecodedInstruction :
    progA.status = .running ∧ progA.mem.fetch reference progA.pc.toNat = .ok [0xEF, 0, 0x80, 0] ∧
    decodeInstr reference.table (wordOfBytes reference.fetchOrder [0xEF, 0, 0x80, 0]) = some (.jal 1 8) ∧
    decodeBytes tableSrc .littleEndian [0xEF, 0, 0x80, 0] = .ok (.jal 1 8, []) :=
  ⟨by decide, rfl, by decide, rfl⟩

theorem test_witness_EncodedInstructionRuns :
    (Instr.jal 1 8).wf = true ∧ progA.status = .running ∧ progA.pc.toNat + 4 ≤ progA.mem.size ∧
    (∀ k < 4, has reference (progA.mem.perm reference (progA.pc.toNat + k)) .read = true) ∧
    progA.mem.bytes reference progA.pc.toNat 4 = encodeBytes (.jal 1 8) := by
  exact ⟨by decide, by decide, by decide, by decide, rfl⟩

theorem test_witness_FetchSucceedsExactlyWhen :
    progA.mem.fetch reference 0x10 = .ok [0xEF, 0, 0x80, 0] ∧
    progA.mem.fetch checked 0x10 = .ok [0xEF, 0, 0x80, 0] := ⟨rfl, rfl⟩

theorem test_witness_StepHaltsOnFetchFault :
    ((State.construct 8 5).status = .running ∧ (State.construct 8 5).mem.size < (State.construct 8 5).pc.toNat + 4) ∧
    ((State.construct 8 4).pc.toNat + 4 ≤ (State.construct 8 4).mem.size ∧
      has reference ((State.construct 8 4).mem.perm reference (4 + 3)) .read = false) ∧
    ((placed 8 4 0x01 0).status = .running ∧ checked.fetchCheckExec = true ∧
      (placed 8 4 0x01 0).pc.toNat + 4 ≤ (placed 8 4 0x01 0).mem.size ∧
      has checked ((placed 8 4 0x01 0).mem.perm checked (4 + 0)) .exec = false) := by decide

theorem test_witness_StepHaltsOnUnmatchedWord :
    (placed 8 4 0x01 0).status = .running ∧
    (placed 8 4 0x01 0).mem.fetch reference (placed 8 4 0x01 0).pc.toNat = .ok [0, 0, 0, 0] ∧
    ∀ e ∈ reference.table, wordOfBytes reference.fetchOrder [0, 0, 0, 0] &&& e.mask ≠ e.value :=
  ⟨by decide, rfl, by decide⟩

theorem test_witness_HaltedMachineMakesNoStep :
    (stepped (State.construct 8 6)).status = .halted (.bounds 6 4) := by decide

theorem test_witness_RunningMachineAlwaysSteps : State.reset.status = .running := by decide

theorem test_witness_FaultingStepChangesOnlyStatus :
    stepWith reference (State.construct 8 6) = .next ((State.construct 8 6).halt (.bounds 6 4)) ∧
    ((State.construct 8 6).halt (.bounds 6 4)).status = .halted (.bounds 6 4) := ⟨rfl, rfl⟩

/-- One step from program A's start, for the statements about a step that completes: it runs on, register 1
changes, and no other general register does. -/
theorem test_witness_step_from_progA :
    stepWith reference progA = .next (stepped progA) ∧ step progA = .next (stepped progA) ∧
    (stepped progA).status = .running ∧ progA.mem.size < 2 ^ 64 ∧
    (1 : RegId) ≠ pcId ∧ (stepped progA).reg 1 ≠ progA.reg 1 := ⟨rfl, rfl, by decide, by decide, by decide, by decide⟩

theorem test_witness_StepChangesNoMemory : stepWith reference progA = .next (stepped progA) :=
  test_witness_step_from_progA.1

theorem test_witness_StepChangesAtMostOneRegister :
    stepWith reference progA = .next (stepped progA) ∧ (1 : RegId) ≠ pcId ∧
    (stepped progA).reg 1 ≠ progA.reg 1 := ⟨rfl, by decide, by decide⟩

theorem test_witness_NoJumpToSelf :
    stepWith reference progA = .next (stepped progA) ∧ (stepped progA).status = .running := ⟨rfl, by decide⟩

theorem test_witness_LinkNeverWraps :
    progA.mem.size < 2 ^ 64 ∧ stepWith reference progA = .next (stepped progA) ∧
    (stepped progA).status = .running := ⟨by decide, rfl, by decide⟩

theorem test_witness_StepKeepsInvariant :
    progA.Inv reference ∧ stepWith reference progA = .next (stepped progA) ∧ step progA = .next (stepped progA) :=
  ⟨⟨by decide, by decide, fun f h => by simp [show progA.status = .running from rfl] at h⟩, rfl, rfl⟩

theorem test_witness_ExecBitIsInertInReference :
    ∃ s s' : State, s.regs = s'.regs ∧ s.status = s'.status ∧ s.mem.size = s'.mem.size ∧
      (∀ a, s.mem.byte reference a = s'.mem.byte reference a) ∧
      (∀ a i, i < 8 → i ≠ reference.execBit.val →
        (s.mem.perm reference a).getLsbD i = (s'.mem.perm reference a).getLsbD i) ∧
      s ≠ s' ∧ s.mem.perm reference 0 = 0x01 ∧ s'.mem.perm reference 0 = 0x05 ∧
      reference.Valid ∧ reference.fetchCheckExec = false := by
  refine ⟨{ State.construct 8 0 with mem := { size := 8, cells := [], perms := [(0, 0x01)] } },
    { State.construct 8 0 with mem := { size := 8, cells := [], perms := [(0, 0x05)] } },
    rfl, rfl, rfl, fun a => rfl, fun a i hi hx => ?_, by decide, by decide, by decide, by decide, rfl⟩
  by_cases h : (0 : Nat) = a
  · subst h
    have hx : i ≠ 2 := hx
    revert hx
    interval_cases i <;> decide
  · simp [Memory.perm, lookup, h]

/-- Three handlers on every word: straight-line, a jump to 0x40, and the two contract breakers of R195. -/
def probe (k : Nat) : HandlerFn := fun rf _ p =>
  match k with
  | 0 => (rf, p)
  | 1 => (regSet rf pcId 0x40, 0x40)
  | 2 => (rf, 0x40)
  | _ => (regSet rf pcId 0x40, p)

/-- A table whose one entry takes every word. -/
def probeTable (k : Nat) : List (Entry Nat) := [{ mask := 0, value := 0, handler := k, name := "probe" }]

theorem test_witness_EngineAdvancesOrRedirects :
    progA.status = .running ∧ progA.mem.fetch reference progA.pc.toNat = .ok [0xEF, 0, 0x80, 0] ∧
    matchWord (probeTable 0) (wordOfBytes reference.fetchOrder [0xEF, 0, 0x80, 0]) = some 0 ∧
    (probe 0 progA.regs 0x008000EF progA.pc).2 = progA.pc ∧
    matchWord (probeTable 1) (wordOfBytes reference.fetchOrder [0xEF, 0, 0x80, 0]) = some 1 ∧
    (probe 1 progA.regs 0x008000EF progA.pc).2 ≠ progA.pc :=
  ⟨by decide, rfl, by decide, by decide, by decide, by decide⟩

/-- R195 on concrete handlers: (b) leaves the program counter, (c) ends 4 past the target. -/
theorem test_broken_handlers :
    (∃ t, engineStep reference (probeTable 2) probe progA = .next t ∧ t.pc = 0x10) ∧
    (∃ t, engineStep reference (probeTable 3) probe progA = .next t ∧ t.pc = 0x44) :=
  ⟨⟨_, rfl, by decide⟩, ⟨_, rfl, by decide⟩⟩

theorem test_witness_BrokenHandlersLandWhereR195Says :
    progA.status = .running ∧ progA.mem.fetch reference progA.pc.toNat = .ok [0xEF, 0, 0x80, 0] ∧
    matchWord (probeTable 2) (wordOfBytes reference.fetchOrder [0xEF, 0, 0x80, 0]) = some 2 ∧
    ((probe 0 progA.regs 0x008000EF progA.pc).2 = progA.pc ∧
      regGet (probe 0 progA.regs 0x008000EF progA.pc).1 pcId = progA.pc) ∧
    ((probe 2 progA.regs 0x008000EF progA.pc).2 ≠ progA.pc ∧
      regGet (probe 2 progA.regs 0x008000EF progA.pc).1 pcId = progA.pc) ∧
    ((probe 3 progA.regs 0x008000EF progA.pc).2 = progA.pc ∧
      regGet (probe 3 progA.regs 0x008000EF progA.pc).1 pcId = 0x40) :=
  ⟨by decide, rfl, by decide, by decide, by decide, by decide⟩

theorem test_witness_ConstructSeedsRegisters : (0 : RegId) ≠ pcId ∧ (31 : RegId) ≠ pcId := by decide

theorem test_witness_ConstructLeavesNothingReadable :
    reference.Valid ∧ 15 < (16 : Word).toNat ∧ 0 < 1 ∧ 15 + 1 ≤ (16 : Word).toNat := by decide

theorem test_witness_UnwrittenByteReadsAsInitMem :
    has reference 0x01 .read = true ∧ 12 + 4 ≤ (16 : Word).toNat := by decide

theorem test_witness_FirstStepWithNothingLoadedHalts :
    reference.Valid ∧ (4 : Word).toNat + 4 ≤ (8 : Word).toNat ∧ (8 : Word).toNat < (5 : Word).toNat + 4 := by decide

theorem test_witness_LoadThenExecuteOneJump :
    (Instr.jal 1 8).wf = true ∧ (Instr.jal 0 0).wf = true ∧ segmentFlagsOk reference 0x05 = true ∧
    has reference 0x05 .read = true ∧ (0x3C : Word).toNat + 4 ≤ (0x40 : Word).toNat := by decide

theorem test_witness_PlacedWordRuns : decodeTableWord 32 0x008000EF = some (.jal 1 8) := by decide

/-- 16 bytes: 0 to 4 written, 0 to 3 then declared READ only (S3). -/
def stateS3 : State := after 16 [.write 0 [1, 2, 3, 4, 5], .declarePermissions 0 4 0x01]

theorem test_witness_ReadReturnsBytesOrFaults :
    stateS3.mem.size < 15 + 2 ∧
    (4 + 2 ≤ stateS3.mem.size ∧ has reference (stateS3.mem.perm reference (4 + 1)) .read = false) ∧
    (0 + 5 ≤ stateS3.mem.size ∧ ∀ k < 5, has reference (stateS3.mem.perm reference (0 + k)) .read = true) := by decide

theorem test_witness_WriteIsAllOrNothingAndPromotes :
    stateS3.mem.size < 15 + 2 ∧
    (2 + 3 ≤ stateS3.mem.size ∧ has reference (stateS3.mem.perm reference (2 + 0)) .write = false) ∧
    (4 + 12 ≤ stateS3.mem.size ∧ (∀ k < 12, has reference (stateS3.mem.perm reference (4 + k)) .write = true) ∧
      has reference (stateS3.mem.perm reference (4 + 1)) .raw = true) ∧
    (4 + 1 ≤ stateS3.mem.size ∧ (∀ k < 1, has reference (stateS3.mem.perm reference (4 + k)) .write = true) ∧
      ∀ k < 1, has reference (stateS3.mem.perm reference (4 + k)) .raw = false) := by decide

theorem test_witness_PromotionTouchesOnlyReadAndRaw :
    reference.Valid ∧ 7 < 8 ∧ 7 ≠ reference.readBit.val ∧ 7 ≠ reference.rawBit.val := by decide

theorem test_witness_DeclareSetsExactlyTheMask :
    stateS3.mem.size < 15 + 2 ∧ 14 + 2 ≤ stateS3.mem.size ∧ (14 ≤ 15 ∧ 15 < 14 + 2) ∧ 13 < 14 := by decide

theorem test_witness_LoadSegmentWritesThenDeclares :
    segmentFlagsOk reference 0x08 = false ∧
    (segmentFlagsOk reference 0x05 = true ∧ stateS3.mem.size < 14 + 3) ∧
    (0 + 2 ≤ stateS3.mem.size ∧ has reference (stateS3.mem.perm reference (0 + 1)) .write = false) ∧
    (4 + 12 ≤ stateS3.mem.size ∧ ∀ k < 12, has reference (stateS3.mem.perm reference (4 + k)) .write = true) := by decide

theorem test_witness_ZeroLengthRanges : 16 ≤ stateS3.mem.size ∧ stateS3.mem.size < 17 := by decide

theorem test_witness_FailedPortChangesNothing :
    Txn.read 15 2 ≠ .step ∧ ∀ v, (transact reference (.read 15 2) (after 16 [])).answer ≠ .ok v :=
  ⟨by decide, fun v h => by cases h.symm.trans (show _ = Answer.fault (.bounds 15 2) from rfl)⟩

theorem test_witness_WriteThenReadReturnsTheBytes :
    reference.Valid ∧ ([9, 8] : List Byte) ≠ [] ∧
    (∃ m', stateS3.mem.write reference 4 [9, 8] = .ok m') ∧ has reference (stateS3.mem.perm reference (4 + 1)) .raw = true ∧
    (∃ m', stateS3.mem.write reference 4 [9] = .ok m') ∧ (∀ k < 1, has reference (stateS3.mem.perm reference (4 + k)) .read = true) :=
  ⟨by decide, by decide, ⟨_, rfl⟩, by decide, ⟨_, rfl⟩, by decide⟩

theorem test_witness_SecondIdenticalWriteChangesNothing :
    reference.Valid ∧ ∃ m', stateS3.mem.write reference 4 [9, 8] = .ok m' := ⟨by decide, _, rfl⟩

theorem test_witness_StoreIsSeenByNextFetch :
    reference.Valid ∧ reference.fetchCheckExec = false ∧
    (∃ m', stateS3.mem.write reference 12 [1, 2, 3, 4] = .ok m') ∧ has reference (stateS3.mem.perm reference (12 + 3)) .raw = true ∧
    (∃ m', (placed 8 4 0x03 0).mem.write reference 4 [1, 2, 3, 4] = .ok m') ∧
    (∀ k < 4, has reference ((placed 8 4 0x03 0).mem.perm reference (4 + k)) .read = true) :=
  ⟨by decide, rfl, ⟨_, rfl⟩, by decide, ⟨_, rfl⟩, by decide⟩

/-- Byte 15 of a fresh memory is promoted by a write over it; byte 14 is not touched. -/
theorem test_witness_PermissionStateMachine :
    (Txn.write 15 [1]).notConstruct ∧ (Txn.write 15 [1]).touchesPerm reference (after 16 []) 15 ∧
    ¬ (Txn.write 15 [1]).touchesPerm reference (after 16 []) 14 := by
  refine ⟨trivial, ⟨⟨_, rfl⟩, 15, 1, rfl, by decide, by decide, fun _ => ⟨0, by decide, by decide⟩⟩, ?_⟩
  rintro ⟨-, a, n, h, h1, -⟩
  simp only [Txn.permSpan, Option.some.injEq, Prod.mk.injEq] at h
  omega

theorem test_witness_PortsKeepCanonicalMemory : stateS3.mem.wf reference ∧ stateS3.mem.cells ≠ [] ∧ stateS3.mem.perms ≠ [] := by decide

/-- Two writes cover 0 to 6 between them, and no write covers 7; one write is out of bounds (section 1.3). -/
theorem test_witness_ReadableExactlyWhenCovered :
    reference.Valid ∧
    (transactAll reference ([(0, [1, 2, 3, 4, 5]), (3, [9, 9, 9, 9]), (15, [7, 7])].map
        (fun w => Txn.write w.1 w.2)) (State.construct 16 0)).mem.read reference 0 7 =
      .ok [1, 2, 3, 9, 9, 9, 9] ∧
    (transactAll reference ([(0, [1, 2, 3, 4, 5]), (3, [9, 9, 9, 9]), (15, [7, 7])].map
        (fun w => Txn.write w.1 w.2)) (State.construct 16 0)).mem.read reference 6 2 =
      .error (.permission .read 6 2) ∧
    (transactAll reference ([(15, [7, 7])].map (fun w => Txn.write w.1 w.2))
        (State.construct 16 0)).mem.read reference 15 1 = .error (.permission .read 15 1) :=
  ⟨reference_valid, rfl, rfl, rfl⟩

theorem test_witness_ReadReturnsLatestStore :
    (∀ t ∈ [Txn.write 0 [1, 2], .write 1 [9]], t.notConstruct) ∧
    (transactAll reference [.write 0 [1, 2], .write 1 [9]] (State.construct 16 0)).mem.read reference 0 2 =
      .ok [1, 9] := ⟨by simp [Txn.notConstruct], rfl⟩

theorem reached_progA (allowed : Txn → Prop) (h : allowed (.loadSegment 0x10 0x05 [0xEF, 0, 0x80, 0])) :
    Reached reference allowed progA :=
  .transact (.loadSegment 0x10 0x05 [0xEF, 0, 0x80, 0]) (.construct 64 0x10) h

theorem test_witness_ReadAndRawStayExclusive : reference.Valid ∧ Reached reference Txn.notDeclare progA :=
  ⟨reference_valid, reached_progA _ trivial⟩

theorem test_witness_ReachablePermissionValues : reference.Valid ∧ Reached reference Txn.notDeclare progA :=
  ⟨reference_valid, reached_progA _ trivial⟩

theorem test_witness_ZeroRegisterStaysZero : Reached reference Txn.keepsZero progA := reached_progA _ trivial

theorem test_witness_HostPortsIgnoreStatus : (Txn.set 0 7).isHostPort ∧ (Txn.write 0 [1]).isHostPort :=
  ⟨trivial, trivial⟩

theorem test_witness_RegisterPorts : (0 : RegId) ≠ pcId ∧ (31 : RegId) ≠ pcId := by decide

theorem test_witness_GuardedWrite : (31 : RegId) ≠ zeroId ∧ (0 : RegId) ≠ 31 := by decide

/-- Section 2.9's inert entry, and a repeated one. -/
theorem test_witness_InertEntriesChangeNothing :
    (0x16F : InsnWord) &&& ~~~ 0x7F ≠ 0 ∧ ∃ d ∈ tableSrc, d.mask = 0x7F ∧ d.value = 0x6F := by decide

theorem test_witness_SourceTableHoldsOnlyJal :
    (0xFFFFFFEF : InsnWord).toNat % 2 ^ 7 = 0x6F ∧ (0xFFFFFFFF : InsnWord).toNat % 2 ^ 7 ≠ 0x6F := by decide

theorem test_witness_ImmediatesBitByBit : 0 < 32 ∧ 31 < 32 := by decide

theorem test_witness_OpcodeBitsReachNoField :
    (0x008000EF : InsnWord).toNat / 2 ^ 7 = (0x00800080 : InsnWord).toNat / 2 ^ 7 := by decide

theorem test_witness_FieldsRoundTrip :
    (isGeneral 31 = true ∧ isGeneral 0 = true) ∧
    (-2048 ≤ (-2048 : BitVec 32).toInt ∧ (2047 : BitVec 32).toInt ≤ 2047) ∧
    (-4096 ≤ (-4096 : BitVec 32).toInt ∧ (4094 : BitVec 32).toInt ≤ 4094 ∧ 2 ∣ (4094 : BitVec 32).toInt) ∧
    4096 ∣ (0xFFFFF000 : BitVec 32).toNat ∧
    (-1048576 ≤ (-1048576 : BitVec 32).toInt ∧ (1048574 : BitVec 32).toInt ≤ 1048574 ∧
      2 ∣ (1048574 : BitVec 32).toInt) := by decide

theorem test_witness_DecodeEncodeAgree : (Instr.jal 31 (-1048576)).wf = true := by decide

theorem test_witness_EncodeDecodeAgree : decodeInstr tableSrc 0x800000EF = some (.jal 1 (-1048576)) := by decide

end Sys2Proof.Tests
end

/-! ### What a step that answers a next state has done -/

section
namespace Sys2Proof.Machine

/-- A dispatch table gives a word no instruction exactly when no entry matches it (R97). -/
theorem decodeInstr_eq_none_iff (table : List (Entry Handler)) (w : InsnWord) :
    decodeInstr table w = none ↔ matchWord table w = none :=
  Option.map_eq_none_iff

/-- Halting changes neither the program counter nor memory, so the fault that is due stays due (R197). -/
@[simp] theorem State.pendingFault_halt (cfg : Config) (s : State) (f : Fault) :
    (s.halt f).pendingFault cfg = s.pendingFault cfg := rfl

theorem State.pendingFault_of_fetch_error {cfg : Config} {s : State} {f : Fault}
    (h : s.mem.fetch cfg s.pc.toNat = .error f) : s.pendingFault cfg = some f := by
  simp [State.pendingFault, h]

theorem State.pendingFault_of_no_instr {cfg : Config} {s : State} {bs : List Byte}
    (hf : s.mem.fetch cfg s.pc.toNat = .ok bs)
    (hd : decodeInstr cfg.table (wordOfBytes cfg.fetchOrder bs) = none) :
    s.pendingFault cfg = some (.decode (wordOfBytes cfg.fetchOrder bs) s.pc.toNat) := by
  simp [State.pendingFault, hf, (decodeInstr_eq_none_iff _ _).mp hd]

/-- A step that answers a next state began in a running machine, and either halted it on the fault that was
due (R191, R192) or ran the fetched jump (R190, R200). -/
theorem stepWith_next {cfg : Config} {s t : State} (h : stepWith cfg s = .next t) :
    s.status = .running ∧
    ((∃ f, s.pendingFault cfg = some f ∧ t = s.halt f) ∨
     (∃ bs rd imm, s.mem.fetch cfg s.pc.toNat = .ok bs ∧
        decodeInstr cfg.table (wordOfBytes cfg.fetchOrder bs) = some (.jal rd imm) ∧
        t = s.execute (jalEffect rd imm))) := by
  obtain ⟨f, _, e⟩ | ⟨f, hs, hf, e⟩ | ⟨bs, hs, hf, hd, e⟩ | ⟨bs, ⟨rd, imm⟩, hs, hf, hd, e⟩ :=
    stepWith_cases cfg s <;> rw [h] at e
  · cases e
  · cases e
    exact ⟨hs, .inl ⟨f, State.pendingFault_of_fetch_error hf, rfl⟩⟩
  · cases e
    exact ⟨hs, .inl ⟨_, State.pendingFault_of_no_instr hf hd, rfl⟩⟩
  · cases e
    exact ⟨hs, .inr ⟨bs, rd, imm, hf, hd, rfl⟩⟩

/-- A step leaves memory alone (R52). -/
theorem stepWith_next_mem {cfg : Config} {s t : State} (h : stepWith cfg s = .next t) : t.mem = s.mem := by
  obtain ⟨-, ⟨f, -, rfl⟩ | ⟨bs, rd, imm, -, -, rfl⟩⟩ := stepWith_next h
  · exact State.halt_mem s f
  · exact State.execute_mem s _

/-- The general registers after a step: `P + 4` in one register other than register 0, or no change, which
is the case of `rd` register 0 (R28, R200). -/
theorem stepWith_next_reg {cfg : Config} {s t : State} (h : stepWith cfg s = .next t) :
    ∃ rd : RegId, ∀ r : RegId, r ≠ pcId →
      t.reg r = if rd ≠ zeroId ∧ rd = r then s.pc + 4 else s.reg r := by
  obtain ⟨-, ⟨f, -, rfl⟩ | ⟨bs, rd, imm, -, -, rfl⟩⟩ := stepWith_next h
  · exact ⟨zeroId, fun r _ => by simp⟩
  · exact ⟨rd, fun r hr => jal_reg rd imm s hr⟩

/-- A step leaves register 0 alone (R27). -/
theorem stepWith_next_zero {cfg : Config} {s t : State} (h : stepWith cfg s = .next t) :
    t.reg zeroId = s.reg zeroId := by
  obtain ⟨rd, hreg⟩ := stepWith_next_reg h
  rw [hreg zeroId (by decide), if_neg fun hrd => hrd.1 hrd.2]

/-- A step that leaves the machine running fetched four bytes in bounds (R191). -/
theorem stepWith_next_running_inBounds {cfg : Config} {s t : State} (h : stepWith cfg s = .next t)
    (ht : t.status = .running) : s.pc.toNat + 4 ≤ s.mem.size := by
  obtain ⟨-, ⟨f, -, rfl⟩ | ⟨bs, rd, imm, hf, -, -⟩⟩ := stepWith_next h
  · cases ht
  · obtain ⟨-, e⟩ | ⟨-, -, e⟩ | ⟨hb, -, -⟩ := Memory.fetch_cases cfg s.mem s.pc.toNat
    · rw [hf] at e; cases e
    · rw [hf] at e; cases e
    · exact hb

/-- A halt that a step has just made is explained by the state it left (R197). -/
theorem stepWith_next_haltExplained {cfg : Config} {s t : State} (h : stepWith cfg s = .next t) :
    t.HaltExplained cfg := by
  intro g hg
  obtain ⟨hs, ⟨f, hp, rfl⟩ | ⟨bs, rd, imm, -, -, rfl⟩⟩ := stepWith_next h
  · cases hg
    exact hp
  · rw [State.execute_status, hs] at hg
    cases hg

/-- Every step keeps the invariant. -/
theorem stepWith_keeps_inv {cfg : Config} {s t : State} (hi : s.Inv cfg) (h : stepWith cfg s = .next t) :
    t.Inv cfg where
  memory := stepWith_next_mem h ▸ hi.memory
  zero := (stepWith_next_zero h).trans hi.zero
  halt := stepWith_next_haltExplained h

end Sys2Proof.Machine
end

/-! ### The transaction ports, field by field -/

section
namespace Sys2Proof.Machine

@[simp] theorem State.replyMem_regs (s : State) (r : Except Fault Memory) :
    (s.replyMem r).state.regs = s.regs := by cases r <;> rfl

@[simp] theorem State.replyMem_status (s : State) (r : Except Fault Memory) :
    (s.replyMem r).state.status = s.status := by cases r <;> rfl

@[simp] theorem State.readPort_state (cfg : Config) (s : State) (a n : Nat) :
    (s.readPort cfg a n).state = s := by unfold State.readPort; split <;> rfl

@[simp] theorem State.loadPort_regs (cfg : Config) (s : State) (va : Nat) (fl : Byte) (bs : List Byte) :
    (s.loadPort cfg va fl bs).state.regs = s.regs := by unfold State.loadPort; split <;> rfl

@[simp] theorem State.loadPort_status (cfg : Config) (s : State) (va : Nat) (fl : Byte) (bs : List Byte) :
    (s.loadPort cfg va fl bs).state.status = s.status := by unfold State.loadPort; split <;> rfl

/-- A memory port takes effect as its memory operation does, so what holds of the memory before and of every
memory the operation can answer holds after it (R118). -/
theorem State.replyMem_mem {P : Memory → Prop} {s : State} {r : Except Fault Memory} (hs : P s.mem)
    (hr : ∀ m, r = .ok m → P m) : P (s.replyMem r).state.mem := by
  cases r with
  | error f => exact hs
  | ok m => exact hr m rfl

/-- As `State.replyMem_mem`, for `load_segment` (R115, R118). -/
theorem State.loadPort_mem {P : Memory → Prop} {cfg : Config} {s : State} {va : Nat} {fl : Byte}
    {bs : List Byte} (hs : P s.mem) (hr : ∀ m, s.mem.loadSegment cfg va fl bs = .next m → P m) :
    P (s.loadPort cfg va fl bs).state.mem := by
  unfold State.loadPort
  split
  · next m hm => exact hr m hm
  · exact hs
  · exact hs

/-- The port `step` leaves the state as it is or as a step's next state (R190, R196). -/
theorem transact_step_state (cfg : Config) (s : State) :
    (transact cfg .step s).state = s ∨ stepWith cfg s = .next (transact cfg .step s).state := by
  simp only [transact, State.stepPort]
  split
  · next t ht => exact .inr (by rw [ht]; split <;> rfl)
  · exact .inl rfl
  · exact .inl rfl

/-- Every transaction keeps memory in its canonical form. -/
theorem transact_keeps_wf {cfg : Config} (t : Txn) {s : State} (h : s.mem.wf cfg) :
    (transact cfg t s).state.mem.wf cfg := by
  cases t with
  | construct n e => exact State.construct_wf cfg n e
  | read a n => rwa [transact, State.readPort_state]
  | write a bs => exact State.replyMem_mem h fun _ => Memory.write_keeps_wf h
  | declarePermissions a n mask => exact State.replyMem_mem h fun _ => Memory.declare_keeps_wf h
  | loadSegment va fl bs => exact State.loadPort_mem h fun _ => Memory.loadSegment_keeps_wf h
  | step => rwa [transact_step_mem]
  | get | set | advancePc | decode | decodeR | decodeI | decodeS | decodeB | decodeU | decodeJ => exact h

/-- Every transaction but a host's `set` of register 0 keeps register 0 zero (R27). -/
theorem transact_keeps_zero {cfg : Config} {t : Txn} {s : State} (ht : t.keepsZero)
    (h : s.reg zeroId = 0) : (transact cfg t s).state.reg zeroId = 0 := by
  cases t with
  | construct n e => exact State.construct_reg n e zeroId
  | read a n => rwa [transact, State.readPort_state]
  | write a bs => rwa [State.reg, transact, State.replyMem_regs]
  | declarePermissions a n mask => rwa [State.reg, transact, State.replyMem_regs]
  | loadSegment va fl bs => rwa [State.reg, transact, State.loadPort_regs]
  | set i v => exact (regGet_regSet_ne s.regs v ht).trans h
  | advancePc => exact (regGet_advancePc s.regs zeroId).trans h
  | step =>
    obtain e | e := transact_step_state cfg s
    · rwa [e]
    · exact (stepWith_next_zero e).trans h
  | get | decode | decodeR | decodeI | decodeS | decodeB | decodeU | decodeJ => exact h

/-- No port but `step` and `construct` changes the run status (R38). -/
theorem transact_status {cfg : Config} {t : Txn} (s : State) (ht : t.isHostPort) :
    (transact cfg t s).state.status = s.status := by
  cases t with
  | construct | step => exact ht.elim
  | read a n => rw [transact, State.readPort_state]
  | write a bs => exact State.replyMem_status s _
  | declarePermissions a n mask => exact State.replyMem_status s _
  | loadSegment va fl bs => exact State.loadPort_status cfg s va fl bs
  | get | set | advancePc | decode | decodeR | decodeI | decodeS | decodeB | decodeU | decodeJ => rfl

/-- The same reply from a state with another run status. -/
def Reply.withStatus (r : Reply) (st : Status) : Reply :=
  { r with state := { r.state with status := st } }

/-- No port but `step` and `construct` reads the run status: another status goes through unseen (R38). -/
theorem transact_withStatus {cfg : Config} {t : Txn} (s : State) (st : Status) (ht : t.isHostPort) :
    transact cfg t { s with status := st } = (transact cfg t s).withStatus st := by
  cases t with
  | construct | step => exact ht.elim
  | read a n => simp only [transact, State.readPort]; split <;> rfl
  | write a bs => simp only [transact]; cases s.mem.write cfg a bs <;> rfl
  | declarePermissions a n mask => simp only [transact]; cases s.mem.declare cfg a n mask <;> rfl
  | loadSegment va fl bs => simp only [transact, State.loadPort]; split <;> rfl
  | get | set | advancePc | decode | decodeR | decodeI | decodeS | decodeB | decodeU | decodeJ => rfl

end Sys2Proof.Machine
end

/-! ### The permission values that are reached without `declare_permissions` -/

section
namespace Sys2Proof.Machine

/-- The permission bytes of a state reached without `declare_permissions`: as construction leaves them, or a
mask `load_segment` accepts (R45). -/
def PermReachable (cfg : Config) (p : Byte) : Prop := p = freshPerm cfg ∨ segmentFlagsOk cfg p = true

/-- The bits of a reachable permission byte are those of the four flags. -/
theorem PermReachable.bit_is_flag {cfg : Config} {p : Byte} (h : PermReachable cfg p) {i : Nat} (hi : i < 8)
    (hb : p.getLsbD i = true) :
    (i = cfg.readBit.val ∨ i = cfg.writeBit.val ∨ i = cfg.execBit.val) ∨ i = cfg.rawBit.val := by
  obtain rfl | hok := h
  · rw [freshPerm, BitVec.getLsbD_or, flagMask_getLsbD, flagMask_getLsbD] at hb
    simp only [Bool.or_eq_true, decide_eq_true_eq] at hb
    exact hb.imp (fun hw => .inr (.inl hw)) id
  · exact .inl ((segmentFlagsOk_iff cfg p).mp hok i hi hb)

/-- Promotion clears RAW and sets only READ, so it leads into the masks `load_segment` accepts (R113). -/
theorem PermReachable.segmentFlagsOk_promoted {cfg : Config} {p : Byte} (h : PermReachable cfg p) :
    segmentFlagsOk cfg (promoted cfg p) = true := by
  refine (segmentFlagsOk_iff cfg _).mpr fun i hi hb => ?_
  rw [promoted_getLsbD cfg p hi] at hb
  simp only [Bool.and_eq_true, Bool.or_eq_true, Bool.not_eq_true', decide_eq_true_eq,
    decide_eq_false_iff_not] at hb
  obtain ⟨hp | hread, hraw⟩ := hb
  · exact (h.bit_is_flag hi hp).resolve_right hraw
  · exact .inl hread

/-- R44 on one byte: no reachable permission byte has both READ and RAW. -/
theorem PermReachable.not_read_and_raw {cfg : Config} (hv : cfg.Valid) {p : Byte} (h : PermReachable cfg p) :
    ¬ (has cfg p .read = true ∧ has cfg p .raw = true) := by
  rintro ⟨hread, hraw⟩
  obtain rfl | hok := h
  · simp [has_freshPerm hv] at hread
  · simp [segmentFlagsOk_no_raw hv hok] at hraw

/-- R45: every transaction but `declare_permissions` leads from reachable permission bytes to reachable ones. -/
theorem permReachable_of_reached {cfg : Config} {s : State} (h : Reached cfg Txn.notDeclare s) (x : Nat) :
    PermReachable cfg (s.mem.perm cfg x) := by
  induction h with
  | construct n e => exact .inl rfl
  | @transact s t _ ok ih =>
    obtain e | e | e | e := transact_perm_cases cfg t s x ok
    · exact .inl e
    · rwa [e]
    · rw [e]; exact .inr ih.segmentFlagsOk_promoted
    · exact .inr e

/-- A `declare_permissions` in bounds answers memory with the mask written (R114). -/
theorem Memory.declare_eq_ok {cfg : Config} {m : Memory} {a n : Nat} (mask : Byte) (h : a + n ≤ m.size) :
    m.declare cfg a n mask = .ok (m.mapPerms cfg (fun _ => mask) a n) := by
  obtain ⟨hb, -⟩ | ⟨-, e⟩ := Memory.declare_cases cfg m a n mask
  · omega
  · exact e

theorem transact_declare_mem {cfg : Config} {s : State} {a n : Nat} (mask : Byte) (h : a + n ≤ s.mem.size) :
    (transact cfg (.declarePermissions a n mask) s).state.mem = s.mem.mapPerms cfg (fun _ => mask) a n := by
  rw [transact, Memory.declare_eq_ok mask h]
  rfl

/-- Memory of one byte, its permission byte declared to be `p`: a state the ports reach (R45). -/
theorem exists_reached_perm (cfg : Config) (p : Byte) :
    ∃ s, Reached cfg (fun _ => True) s ∧ 0 < s.mem.size ∧ s.mem.perm cfg 0 = p := by
  refine ⟨_, .transact (.declarePermissions 0 1 p) (.construct 1 0) trivial, ?_⟩
  rw [transact_declare_mem p (by decide), Memory.mapPerms_size, Memory.perm_mapPerms]
  exact ⟨by decide, rfl⟩

end Sys2Proof.Machine
end

/-! ### The statements about the state -/

section
open Sys2Proof Sys2Proof.Machine

/-- Settles O18: a step leaves memory and register 0 alone, and halts only on the fault that was due. -/
theorem stepKeepsInvariant : Obligations.StepKeepsInvariant := by
  unfold Obligations.StepKeepsInvariant
  exact ⟨fun _ _ _ => stepWith_keeps_inv, fun _ _ => stepWith_keeps_inv⟩

/-- Settles O4: target and link are functions of the program counter and the operands alone. -/
theorem jalReadsOnlyThePc : Obligations.JalReadsOnlyThePc := by
  unfold Obligations.JalReadsOnlyThePc
  intro rd imm s s' hwf hpc
  have hrd : rd ≠ pcId := by
    rintro rfl
    simp [Instr.wf, isGeneral] at hwf
  refine ⟨_, _, rfl, rfl, by rw [jal_pc, jal_pc, hpc], fun h0 => ?_⟩
  rw [jal_reg rd imm s hrd, jal_reg rd imm s' hrd, hpc, if_pos ⟨h0, rfl⟩, if_pos ⟨h0, rfl⟩]

/-- Settles O15: a register that differs is the one the step linked to. -/
theorem stepChangesAtMostOneRegister : Obligations.StepChangesAtMostOneRegister := by
  unfold Obligations.StepChangesAtMostOneRegister
  intro cfg s t h
  obtain ⟨rd, hreg⟩ := stepWith_next_reg h
  have hlink : ∀ r : RegId, r ≠ pcId → t.reg r ≠ s.reg r → rd ≠ zeroId ∧ rd = r := fun r hr hne => by
    by_contra hno
    exact hne ((hreg r hr).trans (if_neg hno))
  refine ⟨fun r hr hne => ?_, fun r r' hr hr' hne hne' => ?_⟩
  · obtain ⟨h0, rfl⟩ := hlink r hr hne
    exact ⟨h0, (hreg rd hr).trans (if_pos ⟨h0, rfl⟩)⟩
  · exact (hlink r hr hne).2.symm.trans (hlink r' hr' hne').2

/-- Settles O17: the four fetched bytes lie in memory, whose size is below 2^64. The sum itself may be the
size, so it is below 2^64 too. -/
theorem linkNeverWraps : Obligations.LinkNeverWraps := by
  unfold Obligations.LinkNeverWraps
  intro cfg s t hsize h ht
  have hb := stepWith_next_running_inBounds h ht
  exact ⟨BitVec.toNat_add_of_lt (by simpa using hb.trans_lt hsize), hb⟩

/-- Settles O25: a fresh permission byte has no READ, so the first byte of the range fails the test. -/
theorem constructLeavesNothingReadable : Obligations.ConstructLeavesNothingReadable := by
  unfold Obligations.ConstructLeavesNothingReadable
  intro cfg memSize entry hv
  refine ⟨fun a _ => State.construct_perm cfg memSize entry a, fun a n hn hb => ?_⟩
  obtain ⟨hout, -⟩ | ⟨-, -, e⟩ | ⟨-, hall, -⟩ :=
    Memory.read_cases cfg (State.construct memSize entry).mem a n
  · rw [State.construct_size] at hout
    omega
  · exact e
  · have hread := (Memory.allHave_iff ..).mp hall 0 hn
    simp [has_freshPerm hv] at hread

/-- Settles O26: `declare_permissions` gives the range its READ and leaves every byte as constructed. -/
theorem unwrittenByteReadsAsInitMem : Obligations.UnwrittenByteReadsAsInitMem := by
  unfold Obligations.UnwrittenByteReadsAsInitMem
  intro cfg memSize entry a n mask hmask hb
  have hd := Memory.declare_eq_ok (cfg := cfg) (m := (State.construct memSize entry).mem) mask hb
  obtain ⟨-, hsize, hbyte, hperm⟩ := Memory.declare_ok hd
  refine ⟨_, hd, ?_⟩
  have hall := (Memory.allHave_iff cfg _ .read a n).mpr fun i hi => by
    rw [hperm, if_pos (by omega)]
    exact hmask
  obtain ⟨hout, -⟩ | ⟨-, hnot, -⟩ | ⟨-, -, e⟩ := Memory.read_cases cfg
    ((State.construct memSize entry).mem.mapPerms cfg (fun _ => mask) a n) a n
  · rw [hsize, State.construct_size] at hout
    omega
  · rw [hall] at hnot
    cases hnot
  · refine ⟨_, e, Memory.bytes_length .., fun k hk => ?_⟩
    rw [Memory.bytes_getElem, hbyte, State.construct_byte]

/-- Settles O41, port by port. -/
theorem portsKeepCanonicalMemory : Obligations.PortsKeepCanonicalMemory := by
  unfold Obligations.PortsKeepCanonicalMemory
  exact fun _ t _ => transact_keeps_wf t

/-- Settles O44: no reachable value has both flags. -/
theorem readAndRawStayExclusive : Obligations.ReadAndRawStayExclusive := by
  unfold Obligations.ReadAndRawStayExclusive
  exact fun _ _ hv hs x => (permReachable_of_reached hs x).not_read_and_raw hv

/-- Settles O45: the containment by induction on the transactions, the reach by one declared byte. -/
theorem reachablePermissionValues : Obligations.ReachablePermissionValues := by
  unfold Obligations.ReachablePermissionValues
  exact fun cfg _ => ⟨fun _ hs x => permReachable_of_reached hs x, exists_reached_perm cfg⟩

/-- Settles O46, by induction on the transactions. -/
theorem zeroRegisterStaysZero : Obligations.ZeroRegisterStaysZero := by
  unfold Obligations.ZeroRegisterStaysZero
  intro cfg s hs
  induction hs with
  | construct n e => exact State.construct_reg n e zeroId
  | transact t _ ok ih => exact transact_keeps_zero ok ih

/-- Settles O24: slot 32 holds the entry and every other slot 0. -/
theorem constructSeedsRegisters : Obligations.ConstructSeedsRegisters := by
  unfold Obligations.ConstructSeedsRegisters
  exact fun n e => ⟨State.construct_pc n e, fun r hr => (State.construct_reg n e r).trans (if_neg hr)⟩

/-- Settles O47: the reply from another status is the same reply with that status. -/
theorem hostPortsIgnoreStatus : Obligations.HostPortsIgnoreStatus := by
  unfold Obligations.HostPortsIgnoreStatus
  intro cfg t s st ht
  exact ⟨transact_status s ht, by rw [transact_withStatus s st ht]; rfl,
    by rw [transact_withStatus s st ht]; rfl⟩

end

/-! ### What a successful write leaves for the accesses after it -/

section
namespace Sys2Proof.Machine

/-- A write in bounds whose bytes all have WRITE succeeds (R112). -/
theorem Memory.exists_write_eq_ok {cfg : Config} {m : Memory} {a : Nat} {bs : List Byte}
    (hb : a + bs.length ≤ m.size) (hw : m.allHave cfg .write a bs.length = true) :
    ∃ m', m.write cfg a bs = .ok m' := by
  obtain ⟨hout, -⟩ | ⟨-, hno, -⟩ | ⟨-, -, e⟩ := Memory.write_cases cfg m a bs
  · omega
  · simp [hw] at hno
  · exact ⟨_, e⟩

/-- A fetch in bounds that passes the permission test answers the bytes (R121, R191). -/
theorem Memory.fetch_eq_ok {cfg : Config} {m : Memory} {a : Nat} (hb : a + 4 ≤ m.size)
    (hf : m.fetchable cfg a = true) : m.fetch cfg a = .ok (m.bytes cfg a 4) := by
  obtain ⟨hout, -⟩ | ⟨-, hno, -⟩ | ⟨-, -, e⟩ := Memory.fetch_cases cfg m a
  · omega
  · simp [hf] at hno
  · exact e

/-- Without `FETCH_CHECK_EXEC` the permission test of a fetch is that of a read (R121). -/
theorem Memory.fetchable_of_no_exec_check {cfg : Config} (h : cfg.fetchCheckExec = false) (m : Memory)
    (a : Nat) : m.fetchable cfg a = m.allHave cfg .read a 4 := by
  simp [Memory.fetchable, h]

/-- A read that succeeds answers the bytes of memory (R111). -/
theorem Memory.eq_bytes_of_read_eq_ok {cfg : Config} {m : Memory} {a n : Nat} {bs : List Byte}
    (h : m.read cfg a n = .ok bs) : bs = m.bytes cfg a n := by
  obtain ⟨-, e⟩ | ⟨-, -, e⟩ | ⟨-, -, e⟩ := Memory.read_cases cfg m a n <;> rw [h] at e <;> cases e
  rfl

/-- A successful write stores its bytes over its span (R53, R112). -/
theorem Memory.bytes_of_write {cfg : Config} {m m' : Memory} {a : Nat} {bs : List Byte}
    (h : m.write cfg a bs = .ok m') : m'.bytes cfg a bs.length = bs := by
  obtain ⟨-, -, -, hbyte, -⟩ := Memory.write_ok h
  refine List.ext_getElem (Memory.bytes_length ..) fun k hk hk' => ?_
  simp [Memory.bytes_getElem, hbyte, hk']

/-- The flags of a byte of the span after a successful write: where the span held a RAW byte, each byte gained
READ and lost RAW (R113). -/
theorem Memory.has_of_write {cfg : Config} (hv : cfg.Valid) {m m' : Memory} {a k : Nat} {bs : List Byte}
    (h : m.write cfg a bs = .ok m') (hk : k < bs.length) (f : Flag) :
    has cfg (m'.perm cfg (a + k)) f =
      if m.someHave cfg .raw a bs.length = true
      then (has cfg (m.perm cfg (a + k)) f || decide (f = .read)) && !decide (f = .raw)
      else has cfg (m.perm cfg (a + k)) f := by
  obtain ⟨-, -, -, -, hperm⟩ := Memory.write_ok h
  rw [hperm]
  by_cases hraw : m.someHave cfg .raw a bs.length = true
  · rw [if_pos ⟨hraw, by omega, by omega⟩, if_pos hraw, has_promoted hv]
  · rw [if_neg fun hc => hraw hc.1, if_neg hraw]

/-- A successful write leaves its span writable: promotion keeps WRITE (R113). -/
theorem Memory.allHave_write_of_write {cfg : Config} (hv : cfg.Valid) {m m' : Memory} {a : Nat}
    {bs : List Byte} (h : m.write cfg a bs = .ok m') : m'.allHave cfg .write a bs.length = true := by
  obtain ⟨-, hw, -⟩ := Memory.write_ok h
  refine (Memory.allHave_iff ..).mpr fun k hk => ?_
  rw [Memory.has_of_write hv h hk, (Memory.allHave_iff ..).mp hw k hk]
  simp

/-- A successful write leaves no RAW byte in its span (R113). -/
theorem Memory.someHave_raw_of_write {cfg : Config} (hv : cfg.Valid) {m m' : Memory} {a : Nat}
    {bs : List Byte} (h : m.write cfg a bs = .ok m') : ¬ m'.someHave cfg .raw a bs.length = true := by
  rw [Memory.someHave_iff]
  rintro ⟨k, hk, hraw⟩
  rw [Memory.has_of_write hv h hk] at hraw
  split at hraw
  · simp at hraw
  · next hno => exact hno ((Memory.someHave_iff ..).mpr ⟨k, hk, hraw⟩)

/-- A successful write over a span that held a RAW byte or was readable leaves the span readable (R113). -/
theorem Memory.allHave_read_of_write {cfg : Config} (hv : cfg.Valid) {m m' : Memory} {a : Nat}
    {bs : List Byte} (h : m.write cfg a bs = .ok m')
    (hspan : (∃ k < bs.length, has cfg (m.perm cfg (a + k)) .raw = true) ∨
      (∀ k < bs.length, has cfg (m.perm cfg (a + k)) .read = true)) :
    m'.allHave cfg .read a bs.length = true := by
  refine (Memory.allHave_iff ..).mpr fun k hk => ?_
  rw [Memory.has_of_write hv h hk]
  obtain hraw | hread := hspan
  · simp [(Memory.someHave_iff ..).mpr hraw]
  · simp [hread k hk]

/-- After any transactions but `construct`, a byte of memory is the latest store to it, or the byte before them
(R61). -/
theorem transactAll_byte (cfg : Config) (ts : List Txn) (s : State) (x : Nat)
    (hts : ∀ t ∈ ts, t.notConstruct) :
    (transactAll cfg ts s).mem.byte cfg x = latestStore cfg x ts s (s.mem.byte cfg x) := by
  induction ts generalizing s with
  | nil => rfl
  | cons t rest ih =>
    obtain ⟨ht, hrest⟩ := List.forall_mem_cons.mp hts
    rw [transactAll, latestStore, ih _ hrest, transact_byte cfg t s x ht]

end Sys2Proof.Machine
end

/-! ### The statements about memory -/

section
open Sys2Proof Sys2Proof.Machine

/-- Settles O14: neither a halt nor an executed jump touches memory. -/
theorem stepChangesNoMemory : Obligations.StepChangesNoMemory := by
  unfold Obligations.StepChangesNoMemory
  exact fun _ _ _ => stepWith_next_mem

/-- Settles O38: the first write leaves its span writable, so the second succeeds; it leaves no RAW byte
there, so the second promotes nothing; and each stored byte is stored over itself. -/
theorem secondIdenticalWriteChangesNothing : Obligations.SecondIdenticalWriteChangesNothing := by
  unfold Obligations.SecondIdenticalWriteChangesNothing
  intro cfg m m' a bs hv h
  obtain ⟨hb, -, hsize, hbyte, -⟩ := Memory.write_ok h
  obtain ⟨m'', h'⟩ := Memory.exists_write_eq_ok (hsize ▸ hb) (Memory.allHave_write_of_write hv h)
  obtain ⟨-, -, hsize', hbyte', hperm'⟩ := Memory.write_ok h'
  refine ⟨m'', h', hsize', fun x => ⟨?_, ?_⟩⟩
  · rw [hbyte', hbyte]
    cases (if a ≤ x then bs[x - a]? else none) <;> rfl
  · rw [hperm', if_neg fun hc => Memory.someHave_raw_of_write hv h hc.1]

/-- Settles O39: the write leaves its span readable, so the fetch answers the four bytes, and their
little-endian word is the sum. -/
theorem storeIsSeenByNextFetch : Obligations.StoreIsSeenByNextFetch := by
  unfold Obligations.StoreIsSeenByNextFetch
  intro cfg m m' a b0 b1 b2 b3 hv hexec h hspan
  obtain ⟨hb, -, hsize, -⟩ := Memory.write_ok h
  have hread := Memory.allHave_read_of_write hv h hspan
  have hfetchable : m'.fetchable cfg a = true :=
    (Memory.fetchable_of_no_exec_check hexec m' a).trans hread
  refine ⟨_, Memory.fetch_eq_ok (hsize ▸ hb) hfetchable, ?_⟩
  have hbytes : m'.bytes cfg a 4 = [b0, b1, b2, b3] := Memory.bytes_of_write h
  rw [hbytes, hv.2]
  exact wordLittle_four_toNat b0 b1 b2 b3

/-- Settles O43: a read answers the bytes of memory, and before any store each holds its `INIT_MEM`. -/
theorem readReturnsLatestStore : Obligations.ReadReturnsLatestStore := by
  unfold Obligations.ReadReturnsLatestStore
  intro cfg memSize entry ts hts a n bs h
  obtain rfl := Memory.eq_bytes_of_read_eq_ok h
  refine ⟨Memory.bytes_length .., fun k hk => ?_⟩
  rw [Memory.bytes_getElem, transactAll_byte cfg ts _ _ hts, State.construct_byte]

end

/-! ### Sign extension from a bit, and the number a pattern stands for -/

section
namespace Sys2Proof

/-- Shifting a pattern up and arithmetically down by `n` keeps its low `32 - n` bits and copies the highest of
them into the others (R89). -/
theorem sar32_shl32_getLsbD (p : InsnWord) {n i : Nat} (hn : n < 32) (hi : i < 32) :
    (sar32 (shl32 p n) n).getLsbD i = p.getLsbD (min i (31 - n)) := by
  rw [sar32_getLsbD _ _ _ hi, shl32_getLsbD, shl32_getLsbD]
  split
  case isTrue h =>
    rw [Nat.min_eq_left (by omega)]
    simp [h]
  case isFalse h =>
    have : ¬ 31 < n := by omega
    rw [Nat.min_eq_right (by omega)]
    simp [this]

/-- Sign extension reads the low `32 - n` bits alone. -/
theorem sar32_shl32_congr {p q : InsnWord} {n : Nat} (hn : n < 32)
    (h : ∀ i < 32 - n, p.getLsbD i = q.getLsbD i) :
    sar32 (shl32 p n) n = sar32 (shl32 q n) n := by
  refine BitVec.eq_of_getLsbD_eq fun i hi => ?_
  rw [sar32_shl32_getLsbD p hn hi, sar32_shl32_getLsbD q hn hi]
  exact h _ (by omega)

/-- An arithmetic right shift divides, rounding down. -/
theorem sar32_toInt (p : InsnWord) (n : Nat) : (sar32 p n).toInt = p.toInt / 2 ^ n := by
  rw [sar32, BitVec.toInt_sshiftRight, Int.shiftRight_eq_div_pow]
  norm_cast

/-- The bound of a signed word, as that of a signed number of `32 - n` bits scaled by `2^n`. -/
theorem two_pow_sub_mul_two_pow {n : Nat} (hn : n < 32) : (2 : Int) ^ (31 - n) * 2 ^ n = 2 ^ 31 := by
  rw [← pow_add, Nat.sub_add_cancel (by omega)]

/-- An arithmetic right shift by `n` leaves a signed number of `32 - n` bits. -/
theorem sar32_toInt_range (p : InsnWord) {n : Nat} (hn : n < 32) :
    -2 ^ (31 - n) ≤ (sar32 p n).toInt ∧ (sar32 p n).toInt < 2 ^ (31 - n) := by
  rw [sar32_toInt, Int.le_ediv_iff_mul_le (by positivity), Int.ediv_lt_iff_lt_mul (by positivity), neg_mul,
    two_pow_sub_mul_two_pow hn]
  exact ⟨BitVec.le_toInt p, BitVec.toInt_lt⟩

/-- A left shift multiplies, modulo `2^32`. -/
theorem shl32_toInt (p : InsnWord) (n : Nat) : (shl32 p n).toInt = (p.toInt * 2 ^ n).bmod (2 ^ 32) := by
  rw [shl32, BitVec.toInt_shiftLeft, Nat.shiftLeft_eq, BitVec.toInt_eq_toNat_bmod, Int.bmod_mul_bmod]
  norm_cast

/-- A signed number of `32 - n` bits is its own sign extension. -/
theorem sar32_shl32_eq_self {p : InsnWord} {n : Nat} (hn : n < 32) (hlow : -2 ^ (31 - n) ≤ p.toInt)
    (hhigh : p.toInt < 2 ^ (31 - n)) : sar32 (shl32 p n) n = p := by
  have hpos : (0 : Int) < 2 ^ n := by positivity
  have hmullow : -2 ^ 31 ≤ p.toInt * 2 ^ n := by
    rw [← two_pow_sub_mul_two_pow hn, ← neg_mul]
    exact mul_le_mul_of_nonneg_right hlow hpos.le
  have hmulhigh : p.toInt * 2 ^ n < 2 ^ 31 := by
    rw [← two_pow_sub_mul_two_pow hn]
    exact mul_lt_mul_of_pos_right hhigh hpos
  apply BitVec.eq_of_toInt_eq
  rw [sar32_toInt, shl32_toInt, Int.bmod_eq_of_le (by omega) (by omega), Int.mul_ediv_cancel _ hpos.ne']

/-- A pattern stands for an even number exactly when its bit 0 is 0. -/
theorem two_dvd_toInt_iff (p : InsnWord) : 2 ∣ p.toInt ↔ p.getLsbD 0 = false := by
  rw [BitVec.getLsbD, Nat.testBit_zero, decide_eq_false_iff_not, BitVec.toInt_eq_toNat_cond]
  omega

theorem isEven_iff (imm : BitVec 32) : isEven imm = true ↔ 2 ∣ imm.toInt := by
  rw [two_dvd_toInt_iff, isEven, Bool.not_eq_true']

theorem inJRange_iff (imm : BitVec 32) :
    inJRange imm = true ↔ -1048576 ≤ imm.toInt ∧ imm.toInt ≤ 1048574 := by
  simp [inJRange]

/-- The well-formed jumps, as R88, R90 and R92 list their operands. -/
theorem jal_wf_iff (rd : RegId) (imm : BitVec 32) :
    (Instr.jal rd imm).wf = true ↔
      isGeneral rd = true ∧ 2 ∣ imm.toInt ∧ -1048576 ≤ imm.toInt ∧ imm.toInt ≤ 1048574 := by
  rw [Instr.wf, Bool.and_eq_true, Bool.and_eq_true, isEven_iff, inJRange_iff, and_assoc]

end Sys2Proof
end

/-! ### The decoders, bit by bit -/

section
namespace Sys2Proof

/-- A slice of a word, placed: each bit is the word bit it was cut from, or 0 outside the slice (R89). -/
theorem place_slice_getLsbD (w : InsnWord) (lo len pos : Nat) {i : Nat} (hi : i < 32) :
    (place (w.extractLsb' lo len) pos).getLsbD i =
      if pos ≤ i ∧ i < pos + len then w.getLsbD (lo + (i - pos)) else false := by
  rw [place_getLsbD, BitVec.getLsbD_extractLsb']
  split
  case isTrue h =>
    have : i - pos < len := by omega
    simp [hi, h.1, this]
  case isFalse h => grind

/-- The S pattern joins two slices of the word (R85). -/
theorem rawS_getLsbD (w : InsnWord) {i : Nat} (hi : i < 12) :
    (rawS w).getLsbD i = if i < 5 then w.getLsbD (i + 7) else w.getLsbD (i + 20) := by
  have h32 : i < 32 := by omega
  simp only [rawS, BitVec.getLsbD_or, place_slice_getLsbD _ _ _ _ h32]
  grind

/-- The B pattern joins four slices of the word above a bit 0 that is 0 (R86). -/
theorem rawB_getLsbD (w : InsnWord) {i : Nat} (hi : i < 13) :
    (rawB w).getLsbD i = if i = 0 then false else if i < 5 then w.getLsbD (i + 7)
      else if i < 11 then w.getLsbD (i + 20) else if i = 11 then w.getLsbD 7 else w.getLsbD 31 := by
  have h32 : i < 32 := by omega
  simp only [rawB, BitVec.getLsbD_or, place_slice_getLsbD _ _ _ _ h32]
  grind

/-- The J pattern joins four slices of the word above a bit 0 that is 0 (R88). -/
theorem rawJ_getLsbD (w : InsnWord) {i : Nat} (hi : i < 21) :
    (rawJ w).getLsbD i = if i = 0 then false else if i < 11 then w.getLsbD (i + 20)
      else if i = 11 then w.getLsbD 20 else if i < 20 then w.getLsbD i else w.getLsbD 31 := by
  have h32 : i < 32 := by omega
  simp only [rawJ, BitVec.getLsbD_or, place_slice_getLsbD _ _ _ _ h32]
  grind

theorem decodeI_imm_getLsbD (w : InsnWord) {i : Nat} (hi : i < 32) :
    (decodeI w).imm.getLsbD i = if i < 11 then w.getLsbD (i + 20) else w.getLsbD 31 := by
  rw [decodeI, sar32_getLsbD w 20 i hi]
  grind

theorem decodeS_imm_getLsbD (w : InsnWord) {i : Nat} (hi : i < 32) :
    (decodeS w).imm.getLsbD i = if i < 5 then w.getLsbD (i + 7)
      else if i < 11 then w.getLsbD (i + 20) else w.getLsbD 31 := by
  rw [decodeS, sar32_shl32_getLsbD _ (by decide) hi, rawS_getLsbD w (by omega)]
  grind

theorem decodeB_imm_getLsbD (w : InsnWord) {i : Nat} (hi : i < 32) :
    (decodeB w).imm.getLsbD i = if i = 0 then false else if i < 5 then w.getLsbD (i + 7)
      else if i < 11 then w.getLsbD (i + 20) else if i = 11 then w.getLsbD 7 else w.getLsbD 31 := by
  rw [decodeB, sar32_shl32_getLsbD _ (by decide) hi, rawB_getLsbD w (by omega)]
  grind

theorem decodeU_imm_getLsbD (w : InsnWord) {i : Nat} (hi : i < 32) :
    (decodeU w).imm.getLsbD i = if i < 12 then false else w.getLsbD i := by
  have hmask : ∀ j < 32, (0xFFFFF000 : InsnWord).getLsbD j = decide (12 ≤ j) := by decide
  rw [decodeU, BitVec.getLsbD_and, hmask i hi]
  grind

theorem decodeJ_imm_getLsbD (w : InsnWord) {i : Nat} (hi : i < 32) :
    (decodeJ w).imm.getLsbD i = if i = 0 then false else if i < 11 then w.getLsbD (i + 20)
      else if i = 11 then w.getLsbD 20 else if i < 20 then w.getLsbD i else w.getLsbD 31 := by
  rw [decodeJ, sar32_shl32_getLsbD _ (by decide) hi, rawJ_getLsbD w (by omega)]
  grind

end Sys2Proof
end

/-! ### The decoders, as numbers -/

section
namespace Sys2Proof

theorem decodeB_imm_even (w : InsnWord) : 2 ∣ (decodeB w).imm.toInt :=
  (two_dvd_toInt_iff _).mpr (decodeB_imm_getLsbD w (by decide))

theorem decodeJ_imm_even (w : InsnWord) : 2 ∣ (decodeJ w).imm.toInt :=
  (two_dvd_toInt_iff _).mpr (decodeJ_imm_getLsbD w (by decide))

/-- A U immediate has its low 12 bits 0, so it is a multiple of 4096 (R87). -/
theorem decodeU_imm_dvd (w : InsnWord) : 4096 ∣ (decodeU w).imm.toNat := by
  have hlow : (decodeU w).imm.setWidth 12 = 0 := by
    refine BitVec.eq_of_getLsbD_eq fun i hi => ?_
    rw [BitVec.getLsbD_setWidth, decodeU_imm_getLsbD w (by omega)]
    simp [hi]
  have hmod := congrArg BitVec.toNat hlow
  rw [BitVec.toNat_setWidth] at hmod
  exact Nat.dvd_of_mod_eq_zero hmod

theorem decodeU_imm_le (w : InsnWord) : (decodeU w).imm.toNat ≤ 0xFFFFF000 := by
  rw [decodeU, BitVec.toNat_and]
  exact Nat.and_le_right

theorem decodeJ_imm_range (w : InsnWord) :
    -1048576 ≤ (decodeJ w).imm.toInt ∧ (decodeJ w).imm.toInt ≤ 1048574 := by
  have hrange : -2 ^ 20 ≤ (decodeJ w).imm.toInt ∧ (decodeJ w).imm.toInt < 2 ^ 20 :=
    sar32_toInt_range (shl32 (rawJ w) 11) (by decide)
  have heven := decodeJ_imm_even w
  omega

theorem decodeB_imm_range (w : InsnWord) :
    -4096 ≤ (decodeB w).imm.toInt ∧ (decodeB w).imm.toInt ≤ 4094 := by
  have hrange : -2 ^ 12 ≤ (decodeB w).imm.toInt ∧ (decodeB w).imm.toInt < 2 ^ 12 :=
    sar32_toInt_range (shl32 (rawB w) 19) (by decide)
  have heven := decodeB_imm_even w
  omega

/-- An immediate of 12 bits, sign extended (R90). -/
theorem sar32_twenty_toInt_range (p : InsnWord) :
    -2048 ≤ (sar32 p 20).toInt ∧ (sar32 p 20).toInt ≤ 2047 := by
  obtain ⟨hlow, hhigh⟩ := sar32_toInt_range p (n := 20) (by decide)
  omega

theorem regId_val (i : BitVec 5) : (regId i).val = i.toNat := rfl

theorem regId_extractLsb'_val (w : InsnWord) (lo : Nat) :
    (regId (w.extractLsb' lo 5)).val = w.toNat / 2 ^ lo % 32 := by
  rw [regId_val, BitVec.extractLsb'_toNat, Nat.shiftRight_eq_div_pow]

theorem funct3Field_toNat (w : InsnWord) : (funct3Field w).toNat = w.toNat / 2 ^ 12 % 8 := by
  rw [funct3Field, BitVec.extractLsb'_toNat, Nat.shiftRight_eq_div_pow]

/-- `funct7` is the top of the word, so no modulus is needed. -/
theorem funct7Field_toNat (w : InsnWord) : (funct7Field w).toNat = w.toNat / 2 ^ 25 := by
  have hw := w.isLt
  rw [funct7Field, BitVec.extractLsb'_toNat, Nat.shiftRight_eq_div_pow]
  omega

end Sys2Proof
end

/-! ### The opcode -/

section
namespace Sys2Proof

/-- Masking a word with 0x7F leaves its low seven bits (R94, R96). -/
theorem and_opcodeMask_eq_jal_iff (w : InsnWord) : w &&& 0x7F = 0x6F ↔ w.toNat % 2 ^ 7 = 0x6F := by
  rw [← BitVec.toNat_inj, BitVec.toNat_and]
  exact iff_of_eq (congrArg (· = 0x6F) (Nat.and_two_pow_sub_one_eq_mod w.toNat 7))

/-- The spec's table has JAL alone (R96, R97). -/
theorem matchWord_tableSrc (w : InsnWord) :
    matchWord tableSrc w = if w.toNat % 2 ^ 7 = 0x6F then some .jal else none := by
  rw [tableSrc, matchWord_cons, Entry.hits]
  simp only [beq_iff_eq, and_opcodeMask_eq_jal_iff]
  rfl

theorem decodeInstr_tableSrc_eq_some_iff (w : InsnWord) (i : Instr) :
    decodeInstr tableSrc w = some i ↔
      w.toNat % 2 ^ 7 = 0x6F ∧ .jal (decodeJ w).rd (decodeJ w).imm = i := by
  rw [decodeInstr, matchWord_tableSrc]
  split
  case isTrue h => exact ⟨fun e => ⟨h, Option.some.inj e⟩, fun e => congrArg some e.2⟩
  case isFalse h => exact ⟨nofun, fun e => absurd e.1 h⟩

/-- What any handler reads from any word is well-formed (R90, R92). -/
theorem Handler.instr_wf (h : Handler) (w : InsnWord) : (h.instr w).wf = true := by
  cases h with
  | jal => exact (jal_wf_iff _ _).mpr ⟨isGeneral_regId _, decodeJ_imm_even w, decodeJ_imm_range w⟩

end Sys2Proof
end

/-! ### The J layout, both ways -/

section
namespace Sys2Proof

/-- Every bit of the J layout (R88). -/
theorem encodeJ_getLsbD (f : JFields) (op : BitVec 7) {i : Nat} (hi : i < 32) :
    (encodeJ f op).getLsbD i = if i < 7 then op.getLsbD i else if i < 12 then (regBits f.rd).getLsbD (i - 7)
      else if i < 20 then f.imm.getLsbD i else if i = 20 then f.imm.getLsbD 11
      else if i < 31 then f.imm.getLsbD (i - 20) else f.imm.getLsbD 20 := by
  simp only [encodeJ, BitVec.getLsbD_or, place_slice_getLsbD _ _ _ _ hi, place_getLsbD]
  grind

/-- The J decoder undoes the J layout on every operand the layout admits, whatever the opcode (R149). -/
theorem decodeJ_encodeJ {f : JFields} (op : BitVec 7) (hrd : isGeneral f.rd = true)
    (heven : 2 ∣ f.imm.toInt) (hlow : -1048576 ≤ f.imm.toInt) (hhigh : f.imm.toInt ≤ 1048574) :
    decodeJ (encodeJ f op) = f := by
  have hbits : ∀ i < 21, (rawJ (encodeJ f op)).getLsbD i = f.imm.getLsbD i := by
    have hzero := (two_dvd_toInt_iff f.imm).mp heven
    intro i hi
    rw [rawJ_getLsbD _ hi]
    grind [encodeJ_getLsbD]
  have himm : sar32 (shl32 (rawJ (encodeJ f op)) 11) 11 = f.imm := by
    rw [sar32_shl32_congr (by decide) hbits]
    exact sar32_shl32_eq_self (by decide) hlow (by omega)
  have hfield : (encodeJ f op).extractLsb' 7 5 = regBits f.rd := by
    refine BitVec.eq_of_getLsbD_eq fun i hi => ?_
    rw [BitVec.getLsbD_extractLsb', encodeJ_getLsbD f op (by omega)]
    grind
  rw [decodeJ, himm, rdField, hfield, regId_regBits hrd]

/-- The J layout undoes the J decoder: with its own opcode bits, a word loses nothing (R88). -/
theorem encodeJ_decodeJ (w : InsnWord) : encodeJ (decodeJ w) (w.setWidth 7) = w := by
  have hrd : regBits (decodeJ w).rd = w.extractLsb' 7 5 := regBits_regId _
  refine BitVec.eq_of_getLsbD_eq fun i hi => ?_
  rw [encodeJ_getLsbD _ _ hi, hrd, BitVec.getLsbD_setWidth, BitVec.getLsbD_extractLsb']
  grind [decodeJ_imm_getLsbD]

/-- A jump's word carries the opcode, and its J fields are the jump's operands (R96, R149). -/
theorem decodeInstr_encode {i : Instr} (h : i.wf = true) : decodeInstr tableSrc (encode i) = some i := by
  cases i with
  | jal rd imm =>
    obtain ⟨hrd, heven, hlow, hhigh⟩ := (jal_wf_iff rd imm).mp h
    have hop : (encode (.jal rd imm)).toNat % 2 ^ 7 = 0x6F :=
      (and_opcodeMask_eq_jal_iff _).mp (Laws.EncodedOpcode.jal rd imm)
    have hfields : decodeJ (encode (.jal rd imm)) = { imm := imm, rd := rd } :=
      decodeJ_encodeJ 0x6F hrd heven hlow hhigh
    exact (decodeInstr_tableSrc_eq_some_iff _ _).mpr ⟨hop, by rw [hfields]⟩

/-- A word that decodes has JAL's opcode, and its J fields put every other bit back (R96). -/
theorem encode_of_decodeInstr {w : InsnWord} {i : Instr} (h : decodeInstr tableSrc w = some i) :
    encode i = w := by
  obtain ⟨hop, rfl⟩ := (decodeInstr_tableSrc_eq_some_iff w i).mp h
  have hopcode : w.setWidth 7 = 0x6F := BitVec.eq_of_toNat_eq ((BitVec.toNat_setWidth ..).trans hop)
  have hword := encodeJ_decodeJ w
  rwa [hopcode] at hword

end Sys2Proof
end

/-! ### Words as bytes -/

section
namespace Sys2Proof

/-- The bytes of a word form it again, in either order (R54, R81). -/
theorem wordOfBytes_bytesOfWord (order : ByteOrder) (w : InsnWord) :
    wordOfBytes order (bytesOfWord order w) = w := by
  have hlittle : wordLittle (bytesOfWord .littleEndian w) = w := by
    apply BitVec.eq_of_toNat_eq
    have hw := w.isLt
    simp only [bytesOfWord, wordLittle_four_toNat, BitVec.extractLsb'_toNat, Nat.shiftRight_eq_div_pow]
    omega
  cases order with
  | littleEndian => exact hlittle
  | bigEndian => exact hlittle

theorem bytesOfWord_length (order : ByteOrder) (w : InsnWord) : (bytesOfWord order w).length = insnWidth := by
  cases order <;> rfl

/-- The byte decoder reads a word's bytes as that word and hands back what follows them (R80, R81). -/
theorem decodeBytes_bytesOfWord_append {table : List (Entry Handler)} {w : InsnWord} {i : Instr}
    (order : ByteOrder) (rest : List Byte) (h : decodeInstr table w = some i) :
    decodeBytes table order (bytesOfWord order w ++ rest) = .ok (i, rest) := by
  have hlen := bytesOfWord_length order w
  have hlong : ¬ (bytesOfWord order w ++ rest).length < insnWidth := by
    rw [List.length_append]
    omega
  simp only [decodeBytes, if_neg hlong, List.take_left' hlen, List.drop_left' hlen, wordOfBytes_bytesOfWord, h]

end Sys2Proof
end

/-! ### The statements about the encoding -/

section
open Sys2Proof

/-- Settles O58: the bytes form the word, and the word decodes to the instruction. -/
theorem decodeEncodeAgree : Obligations.DecodeEncodeAgree := by
  unfold Obligations.DecodeEncodeAgree
  exact fun i rest h => decodeBytes_bytesOfWord_append .littleEndian rest (decodeInstr_encode h)

/-- Settles O59: a word that decodes has the opcode of JAL, and the J layout puts every other bit back where
the decoder cut it from; what a handler reads is well-formed whatever entry led to it. -/
theorem encodeDecodeAgree : Obligations.EncodeDecodeAgree := by
  unfold Obligations.EncodeDecodeAgree
  refine ⟨fun _ _ => encode_of_decodeInstr, fun table w i h => ?_⟩
  obtain ⟨handler, -, rfl⟩ := Option.map_eq_some_iff.mp h
  exact handler.instr_wf w

/-- Settles O52, by the one entry of the table. -/
theorem sourceTableHoldsOnlyJal : Obligations.SourceTableHoldsOnlyJal := by
  unfold Obligations.SourceTableHoldsOnlyJal
  intro w
  rw [matchWord_tableSrc]
  exact ⟨fun h => if_pos h, fun h => if_neg h⟩

/-- Settles O53, decoder by decoder. -/
theorem immediatesBitByBit : Obligations.ImmediatesBitByBit := by
  unfold Obligations.ImmediatesBitByBit
  exact fun w i hi => ⟨decodeI_imm_getLsbD w hi, decodeS_imm_getLsbD w hi, decodeB_imm_getLsbD w hi,
    decodeU_imm_getLsbD w hi, decodeJ_imm_getLsbD w hi⟩

/-- Settles O54: a slice of a word is a quotient modulo its width, and the six decoders cut with the same
slices. -/
theorem fixedFieldsAreCutFromTheWord : Obligations.FixedFieldsAreCutFromTheWord := by
  unfold Obligations.FixedFieldsAreCutFromTheWord
  intro w
  refine ⟨⟨funct7Field_toNat w, regId_extractLsb'_val w 20, regId_extractLsb'_val w 15, funct3Field_toNat w,
    regId_extractLsb'_val w 7⟩, ?_⟩
  exact ⟨⟨rfl, rfl, rfl⟩, ⟨rfl, rfl, rfl⟩, ⟨rfl, rfl, rfl⟩, rfl, rfl⟩

/-- Settles O55: the shift of the sign extension bounds the immediate, and bit 0 makes it even. -/
theorem immediateRanges : Obligations.ImmediateRanges := by
  unfold Obligations.ImmediateRanges
  intro w
  obtain ⟨hBlow, hBhigh⟩ := decodeB_imm_range w
  obtain ⟨hJlow, hJhigh⟩ := decodeJ_imm_range w
  exact ⟨sar32_twenty_toInt_range w, sar32_twenty_toInt_range (shl32 (rawS w) 20),
    ⟨hBlow, hBhigh, decodeB_imm_even w⟩, ⟨decodeU_imm_le w, decodeU_imm_dvd w⟩,
    ⟨hJlow, hJhigh, decodeJ_imm_even w⟩⟩

/-- Settles O60, by evaluating the decoder on the eight words. -/
theorem sampleWordsDecode : Obligations.SampleWordsDecode := by
  unfold Obligations.SampleWordsDecode
  decide

end

/-! ### The memory ports, under each of their conditions -/

section
namespace Sys2Proof.Machine

/-- A span lacks a flag exactly when one of its bytes does. -/
theorem Memory.allHave_eq_false_iff (cfg : Config) (m : Memory) (f : Flag) (a n : Nat) :
    m.allHave cfg f a n = false ↔ ∃ k < n, has cfg (m.perm cfg (a + k)) f = false := by
  simp [Memory.allHave]

/-- A span has no byte with a flag exactly when every byte of it lacks the flag. -/
theorem Memory.someHave_eq_false_iff (cfg : Config) (m : Memory) (f : Flag) (a n : Nat) :
    m.someHave cfg f a n = false ↔ ∀ k < n, has cfg (m.perm cfg (a + k)) f = false := by
  simp [Memory.someHave]

/-- A read beyond memory is a bounds fault (R111). -/
theorem Memory.read_out_of_bounds (cfg : Config) {m : Memory} {a n : Nat} (h : m.size < a + n) :
    m.read cfg a n = .error (.bounds a n) := by
  simp [Memory.read, Memory.inBounds, h]

/-- A read in bounds with a byte that lacks READ is a permission fault (R111). -/
theorem Memory.read_unreadable {cfg : Config} {m : Memory} {a n : Nat} (hb : a + n ≤ m.size)
    (hr : m.allHave cfg .read a n = false) : m.read cfg a n = .error (.permission .read a n) := by
  simp [Memory.read, Memory.inBounds, hb, hr]

/-- A read in bounds whose bytes all have READ answers the bytes (R111). -/
theorem Memory.read_eq_ok {cfg : Config} {m : Memory} {a n : Nat} (hb : a + n ≤ m.size)
    (hr : m.allHave cfg .read a n = true) : m.read cfg a n = .ok (m.bytes cfg a n) := by
  simp [Memory.read, Memory.inBounds, hb, hr]

/-- A write beyond memory is a bounds fault (R112). -/
theorem Memory.write_out_of_bounds (cfg : Config) {m : Memory} {a : Nat} {bs : List Byte}
    (h : m.size < a + bs.length) : m.write cfg a bs = .error (.bounds a bs.length) := by
  simp [Memory.write, Memory.inBounds, h]

/-- A write in bounds over a byte that lacks WRITE is a permission fault (R112). -/
theorem Memory.write_unwritable {cfg : Config} {m : Memory} {a : Nat} {bs : List Byte}
    (hb : a + bs.length ≤ m.size) (hw : m.allHave cfg .write a bs.length = false) :
    m.write cfg a bs = .error (.permission .write a bs.length) := by
  simp [Memory.write, Memory.inBounds, hb, hw]

/-- A write in bounds whose bytes all have WRITE stores the bytes and promotes the span (R112, R113). -/
theorem Memory.write_eq_ok {cfg : Config} {m : Memory} {a : Nat} {bs : List Byte}
    (hb : a + bs.length ≤ m.size) (hw : m.allHave cfg .write a bs.length = true) :
    m.write cfg a bs = .ok ((m.store a bs).promote cfg a bs.length) := by
  simp [Memory.write, Memory.inBounds, hb, hw]

/-- A declaration beyond memory is a bounds fault (R114). -/
theorem Memory.declare_out_of_bounds (cfg : Config) {m : Memory} {a n : Nat} (mask : Byte)
    (h : m.size < a + n) : m.declare cfg a n mask = .error (.bounds a n) := by
  simp [Memory.declare, Memory.inBounds, h]

/-- `load_segment` refuses flags outside the eight subsets (R115, R224). -/
theorem Memory.loadSegment_of_bad_flags (cfg : Config) (m : Memory) (va : Nat) {fl : Byte} (bs : List Byte)
    (hf : segmentFlagsOk cfg fl = false) : m.loadSegment cfg va fl bs = .refused (.segmentFlags fl) := by
  simp [Memory.loadSegment, hf]

/-- `load_segment` gives the fault of its write (R115). -/
theorem Memory.loadSegment_of_write_error {cfg : Config} {m : Memory} {va : Nat} {fl : Byte} {bs : List Byte}
    {f : Fault} (hf : segmentFlagsOk cfg fl = true) (hw : m.write cfg va bs = .error f) :
    m.loadSegment cfg va fl bs = .fault f := by
  simp [Memory.loadSegment, hf, hw]

/-- The bytes of the span of a successful write, and what lies outside it (R112, R113). -/
theorem Memory.write_frame {cfg : Config} {m m' : Memory} {a : Nat} {bs : List Byte}
    (h : m.write cfg a bs = .ok m') :
    (∀ (k : Nat) (hk : k < bs.length), m'.byte cfg (a + k) = bs[k]) ∧
    ∀ x, x < a ∨ a + bs.length ≤ x → m'.byte cfg x = m.byte cfg x ∧ m'.perm cfg x = m.perm cfg x := by
  obtain ⟨-, -, -, hbyte, hperm⟩ := Memory.write_ok h
  have hstore : ∀ x, m'.byte cfg x = (m.store a bs).byte cfg x := fun x =>
    (hbyte x).trans (Memory.byte_store ..).symm
  refine ⟨fun k hk => (hstore _).trans (Memory.byte_store_in cfg m a k bs hk), fun x hx => ⟨?_, ?_⟩⟩
  · exact (hstore x).trans (Memory.byte_store_out cfg m a x bs hx)
  · rw [hperm, if_neg (by omega)]

/-- The permission bytes after a successful `load_segment`: the flags over its span, whatever its write promoted
there, and no change elsewhere (R115). -/
theorem Memory.loadSegment_perm {cfg : Config} {m m' : Memory} {va : Nat} {fl : Byte} {bs : List Byte}
    (h : m.loadSegment cfg va fl bs = .next m') (x : Nat) :
    m'.perm cfg x = if va ≤ x ∧ x < va + bs.length then fl else m.perm cfg x := by
  obtain ⟨-, m₁, hw, hd⟩ := Memory.loadSegment_next h
  obtain ⟨-, hframe⟩ := Memory.write_frame hw
  obtain ⟨-, -, -, hperm⟩ := Memory.declare_ok hd
  rw [hperm]
  split
  · rfl
  · next hout => exact (hframe x (by omega)).2

end Sys2Proof.Machine
end

/-! ### What the memory ports reply -/

section
namespace Sys2Proof.Machine

theorem transact_read_of_error {cfg : Config} {s : State} {a n : Nat} {f : Fault}
    (h : s.mem.read cfg a n = .error f) : transact cfg (.read a n) s = { state := s, answer := .fault f } := by
  simp [transact, State.readPort, h]

theorem transact_read_of_ok {cfg : Config} {s : State} {a n : Nat} {bs : List Byte}
    (h : s.mem.read cfg a n = .ok bs) :
    transact cfg (.read a n) s = { state := s, answer := .ok (.bytes bs) } := by
  simp [transact, State.readPort, State.reply, h]

theorem transact_write_of_error {cfg : Config} {s : State} {a : Nat} {bs : List Byte} {f : Fault}
    (h : s.mem.write cfg a bs = .error f) :
    transact cfg (.write a bs) s = { state := s, answer := .fault f } := by
  simp [transact, State.replyMem, h]

theorem transact_write_of_ok {cfg : Config} {s : State} {a : Nat} {bs : List Byte} {m' : Memory}
    (h : s.mem.write cfg a bs = .ok m') :
    transact cfg (.write a bs) s = { state := { s with mem := m' }, answer := .ok .done } := by
  simp [transact, State.replyMem, h]

theorem transact_declare_of_error {cfg : Config} {s : State} {a n : Nat} {mask : Byte} {f : Fault}
    (h : s.mem.declare cfg a n mask = .error f) :
    transact cfg (.declarePermissions a n mask) s = { state := s, answer := .fault f } := by
  simp [transact, State.replyMem, h]

theorem transact_declare_of_ok {cfg : Config} {s : State} {a n : Nat} {mask : Byte} {m' : Memory}
    (h : s.mem.declare cfg a n mask = .ok m') :
    transact cfg (.declarePermissions a n mask) s =
      { state := { s with mem := m' }, answer := .ok .done } := by
  simp [transact, State.replyMem, h]

theorem transact_load_of_refused {cfg : Config} {s : State} {va : Nat} {fl : Byte} {bs : List Byte}
    {r : Refusal} (h : s.mem.loadSegment cfg va fl bs = .refused r) :
    transact cfg (.loadSegment va fl bs) s = { state := s, answer := .refused r } := by
  simp [transact, State.loadPort, h]

theorem transact_load_of_fault {cfg : Config} {s : State} {va : Nat} {fl : Byte} {bs : List Byte}
    {f : Fault} (h : s.mem.loadSegment cfg va fl bs = .fault f) :
    transact cfg (.loadSegment va fl bs) s = { state := s, answer := .fault f } := by
  simp [transact, State.loadPort, h]

theorem transact_load_of_next {cfg : Config} {s : State} {va : Nat} {fl : Byte} {bs : List Byte}
    {m' : Memory} (h : s.mem.loadSegment cfg va fl bs = .next m') :
    transact cfg (.loadSegment va fl bs) s = { state := { s with mem := m' }, answer := .ok .done } := by
  simp [transact, State.loadPort, h]

/-- A memory port that answers a success holds the memory its operation answered (R118). -/
theorem State.eq_ok_of_replyMem {s : State} {r : Except Fault Memory} {v : Value}
    (h : (s.replyMem r).answer = .ok v) : r = .ok (s.replyMem r).state.mem := by
  cases r with
  | error f => cases h
  | ok m => rfl

/-- As `State.eq_ok_of_replyMem`, for `load_segment` (R115, R118). -/
theorem State.eq_next_of_loadPort {cfg : Config} {s : State} {va : Nat} {fl : Byte} {bs : List Byte}
    {v : Value} (h : (s.loadPort cfg va fl bs).answer = .ok v) :
    s.mem.loadSegment cfg va fl bs = .next (s.loadPort cfg va fl bs).state.mem := by
  unfold State.loadPort at h ⊢
  cases hl : s.mem.loadSegment cfg va fl bs with
  | next m => rfl
  | fault f => simp [hl] at h
  | refused r => simp [hl] at h

/-- A memory port that answers no success leaves the state (R118). -/
theorem State.replyMem_state_of_failed {s : State} {r : Except Fault Memory}
    (h : ∀ v, (s.replyMem r).answer ≠ .ok v) : (s.replyMem r).state = s := by
  cases r with
  | error f => rfl
  | ok m => exact absurd rfl (h .done)

/-- As `State.replyMem_state_of_failed`, for `load_segment` (R115, R118, R224). -/
theorem State.loadPort_state_of_failed {cfg : Config} {s : State} {va : Nat} {fl : Byte} {bs : List Byte}
    (h : ∀ v, (s.loadPort cfg va fl bs).answer ≠ .ok v) : (s.loadPort cfg va fl bs).state = s := by
  unfold State.loadPort at h ⊢
  cases hl : s.mem.loadSegment cfg va fl bs with
  | next m => simp [hl] at h
  | fault f => rfl
  | refused r => rfl

/-- A transaction but `step` that answers no success leaves the state (R118, R224, R229). -/
theorem transact_state_of_failed {cfg : Config} {t : Txn} {s : State} (ht : t ≠ .step)
    (h : ∀ v, (transact cfg t s).answer ≠ .ok v) : (transact cfg t s).state = s := by
  cases t with
  | step => exact absurd rfl ht
  | read a n => exact State.readPort_state cfg s a n
  | write a bs => exact State.replyMem_state_of_failed h
  | declarePermissions a n mask => exact State.replyMem_state_of_failed h
  | loadSegment va fl bs => exact State.loadPort_state_of_failed h
  | construct | get | set | advancePc | decode | decodeR | decodeI | decodeS | decodeB | decodeU | decodeJ =>
    exact absurd rfl (h _)

end Sys2Proof.Machine
end

/-! ### The permission state machine of one byte -/

section
namespace Sys2Proof.Machine

/-- A transaction without a permission span, `construct` aside, leaves memory alone (R52, R111). -/
theorem transact_mem_of_no_permSpan (cfg : Config) {t : Txn} (s : State) (hc : t.notConstruct)
    (h : t.permSpan = none) : (transact cfg t s).state.mem = s.mem := by
  cases t with
  | construct n e => exact hc.elim
  | write | declarePermissions | loadSegment => cases h
  | read a n => rw [transact, State.readPort_state]
  | step => exact transact_step_mem cfg s
  | get | set | advancePc | decode | decodeR | decodeI | decodeS | decodeB | decodeU | decodeJ => rfl

/-- A transaction without a permission span touches no permission byte. -/
theorem Txn.not_touchesPerm_of_no_permSpan {cfg : Config} {t : Txn} {s : State} {x : Nat}
    (h : t.permSpan = none) : ¬ t.touchesPerm cfg s x := by
  rintro ⟨-, a, n, hspan, -⟩
  cases h.symm.trans hspan

/-- A transaction that succeeded touches the bytes of its span; a `write`, only where the span held a RAW byte
(R116). -/
theorem Txn.touchesPerm_iff_of_ok {cfg : Config} {t : Txn} {s : State} {x a n : Nat} {v : Value}
    (hok : (transact cfg t s).answer = .ok v) (hspan : t.permSpan = some (a, n)) :
    t.touchesPerm cfg s x ↔
      a ≤ x ∧ x < a + n ∧ (t.isWrite → s.mem.someHave cfg .raw a n = true) := by
  simp only [Txn.touchesPerm, hspan, hok, Memory.someHave_iff]
  constructor
  · rintro ⟨-, _, _, ⟨⟩, h⟩
    exact h
  · exact fun h => ⟨⟨v, rfl⟩, a, n, rfl, h⟩

/-- The permission bytes after a transaction that succeeded on its span (R116). -/
theorem transact_perm_of_ok {cfg : Config} {t : Txn} {s : State} {a n : Nat} {v : Value} (x : Nat)
    (hok : (transact cfg t s).answer = .ok v) (hspan : t.permSpan = some (a, n)) :
    (a ≤ x ∧ x < a + n ∧ (t.isWrite → s.mem.someHave cfg .raw a n = true) →
      (transact cfg t s).state.mem.perm cfg x = t.nextPerm cfg (s.mem.perm cfg x)) ∧
    (¬ (a ≤ x ∧ x < a + n ∧ (t.isWrite → s.mem.someHave cfg .raw a n = true)) →
      (transact cfg t s).state.mem.perm cfg x = s.mem.perm cfg x) := by
  cases t with
  | write b bs =>
    cases hspan
    obtain ⟨-, -, -, -, hperm⟩ := Memory.write_ok (State.eq_ok_of_replyMem hok)
    exact ⟨fun ⟨hlow, hhigh, hraw⟩ => (hperm x).trans (if_pos ⟨hraw trivial, hlow, hhigh⟩),
      fun hno => (hperm x).trans (if_neg fun ⟨hraw, hlow, hhigh⟩ => hno ⟨hlow, hhigh, fun _ => hraw⟩)⟩
  | declarePermissions b k mask =>
    cases hspan
    obtain ⟨-, -, -, hperm⟩ := Memory.declare_ok (State.eq_ok_of_replyMem hok)
    exact ⟨fun ⟨hlow, hhigh, _⟩ => (hperm x).trans (if_pos ⟨hlow, hhigh⟩),
      fun hno => (hperm x).trans (if_neg fun ⟨hlow, hhigh⟩ => hno ⟨hlow, hhigh, False.elim⟩)⟩
  | loadSegment va fl bs =>
    cases hspan
    have hperm := Memory.loadSegment_perm (State.eq_next_of_loadPort hok) x
    exact ⟨fun ⟨hlow, hhigh, _⟩ => hperm.trans (if_pos ⟨hlow, hhigh⟩),
      fun hno => hperm.trans (if_neg fun ⟨hlow, hhigh⟩ => hno ⟨hlow, hhigh, False.elim⟩)⟩
  | _ => cases hspan

/-- Every transaction but `construct` does to a permission byte what the table of R116 says: a failed one and
one without a span leave it, and each of the three that succeed on a span acts on that span. -/
theorem transact_perm (cfg : Config) {t : Txn} (s : State) (x : Nat) (hc : t.notConstruct) :
    (t.touchesPerm cfg s x →
      (transact cfg t s).state.mem.perm cfg x = t.nextPerm cfg (s.mem.perm cfg x)) ∧
    (¬ t.touchesPerm cfg s x → (transact cfg t s).state.mem.perm cfg x = s.mem.perm cfg x) := by
  cases hspan : t.permSpan with
  | none =>
    exact ⟨fun h => absurd h (Txn.not_touchesPerm_of_no_permSpan hspan),
      fun _ => by rw [transact_mem_of_no_permSpan cfg s hc hspan]⟩
  | some span =>
    by_cases hok : ∃ v, (transact cfg t s).answer = .ok v
    · obtain ⟨v, hv⟩ := hok
      rw [Txn.touchesPerm_iff_of_ok hv hspan]
      exact transact_perm_of_ok x hv hspan
    · have hstep : t ≠ .step := by
        rintro rfl
        cases hspan
      rw [transact_state_of_failed hstep fun v hv => hok ⟨v, hv⟩]
      exact ⟨fun h => absurd h.1 hok, fun _ => rfl⟩

end Sys2Proof.Machine
end

/-! ### Memory that only writes have reached -/

section
namespace Sys2Proof.Machine

/-- A write in bounds of memory of the given size, with the address in its span (R120). -/
def Covers (size : Nat) (w : Nat × List Byte) (x : Nat) : Prop :=
  w.1 + w.2.length ≤ size ∧ w.1 ≤ x ∧ x < w.1 + w.2.length

/-- A permission byte that only writes have reached since construction: always writable; readable once it has
been written, and RAW until then (R113, R120). -/
structure WriteOnlyPerm (cfg : Config) (p : Byte) (written : Prop) : Prop where
  writable : has cfg p .write = true
  readable : has cfg p .read = true ↔ written
  raw : has cfg p .raw = true ↔ ¬ written

/-- A fresh permission byte has not been written (R41). -/
theorem writeOnlyPerm_freshPerm {cfg : Config} (hv : cfg.Valid) : WriteOnlyPerm cfg (freshPerm cfg) False where
  writable := by simp [has_freshPerm hv]
  readable := by simp [has_freshPerm hv]
  raw := by simp [has_freshPerm hv]

/-- Promotion makes a permission byte a written one (R113). -/
theorem WriteOnlyPerm.promoted_written {cfg : Config} (hv : cfg.Valid) {p : Byte} {written : Prop}
    (h : WriteOnlyPerm cfg p written) : WriteOnlyPerm cfg (promoted cfg p) True where
  writable := by simp [has_promoted hv, h.writable]
  readable := by simp [has_promoted hv]
  raw := by simp [has_promoted hv]

/-- One write adds its span to the written addresses when it is in bounds, and nothing otherwise: all bytes have
WRITE, so bounds alone decide; and a span without a RAW byte has been written already (R120). -/
theorem transact_write_writeOnlyPerm {cfg : Config} (hv : cfg.Valid) {s : State} {written : Nat → Prop}
    (h : ∀ x, WriteOnlyPerm cfg (s.mem.perm cfg x) (written x)) (w : Nat × List Byte) (x : Nat) :
    WriteOnlyPerm cfg ((transact cfg (.write w.1 w.2) s).state.mem.perm cfg x)
      (written x ∨ Covers s.mem.size w x) := by
  obtain ⟨a, bs⟩ := w
  by_cases hb : a + bs.length ≤ s.mem.size
  · have hw := (Memory.allHave_iff cfg s.mem .write a bs.length).mpr fun k _ => (h (a + k)).writable
    have hok := Memory.write_eq_ok hb hw
    obtain ⟨-, -, -, -, hperm⟩ := Memory.write_ok hok
    rw [transact_write_of_ok hok, hperm]
    split
    · next hin =>
      rw [eq_true (.inr ⟨hb, hin.2⟩ : written x ∨ Covers s.mem.size (a, bs) x)]
      exact (h x).promoted_written hv
    · next hout =>
      have hwritten : Covers s.mem.size (a, bs) x → written x := by
        rintro ⟨-, hlow : a ≤ x, hhigh : x < a + bs.length⟩
        by_contra hno
        refine hout ⟨(Memory.someHave_iff ..).mpr ⟨x - a, by omega, ?_⟩, hlow, hhigh⟩
        rw [Nat.add_sub_cancel' hlow]
        exact (h x).raw.mpr hno
      rw [or_iff_left_of_imp hwritten]
      exact h x
  · rw [transact_write_of_error (Memory.write_out_of_bounds cfg (Nat.lt_of_not_le hb)),
      or_iff_left fun hc => hb hc.1]
    exact h x

/-- No write changes the size of memory (R37). -/
theorem transact_write_size (cfg : Config) (a : Nat) (bs : List Byte) (s : State) :
    (transact cfg (.write a bs) s).state.mem.size = s.mem.size :=
  State.replyMem_mem (P := fun m => m.size = s.mem.size) rfl fun _ hw => (Memory.write_ok hw).2.2.1

/-- The writes of a list, as transactions. -/
def writeTxns (ws : List (Nat × List Byte)) : List Txn := ws.map fun w => .write w.1 w.2

theorem transactAll_writes_size (cfg : Config) (ws : List (Nat × List Byte)) (s : State) :
    (transactAll cfg (writeTxns ws) s).mem.size = s.mem.size := by
  induction ws generalizing s with
  | nil => rfl
  | cons w rest ih => exact (ih _).trans (transact_write_size cfg w.1 w.2 s)

/-- A list of writes adds the spans of those in bounds to the written addresses (R120). -/
theorem transactAll_writes_writeOnlyPerm {cfg : Config} (hv : cfg.Valid) (ws : List (Nat × List Byte))
    {s : State} {written : Nat → Prop} (h : ∀ x, WriteOnlyPerm cfg (s.mem.perm cfg x) (written x)) (x : Nat) :
    WriteOnlyPerm cfg ((transactAll cfg (writeTxns ws) s).mem.perm cfg x)
      (written x ∨ ∃ w ∈ ws, Covers s.mem.size w x) := by
  induction ws generalizing s written with
  | nil => simpa [writeTxns, transactAll] using h x
  | cons w rest ih =>
    have hrest := ih (transact_write_writeOnlyPerm hv h w)
    rw [transact_write_size, or_assoc] at hrest
    rw [List.exists_mem_cons_iff]
    exact hrest

/-- From fresh memory and by writes alone, a byte is readable exactly when a write in bounds covers it (R120). -/
theorem has_read_transactAll_writes {cfg : Config} (hv : cfg.Valid) (memSize entry : Word)
    (ws : List (Nat × List Byte)) (x : Nat) :
    has cfg ((transactAll cfg (writeTxns ws) (State.construct memSize entry)).mem.perm cfg x) .read = true ↔
      ∃ w ∈ ws, Covers memSize.toNat w x := by
  have h := transactAll_writes_writeOnlyPerm hv ws (s := State.construct memSize entry)
    (fun _ => writeOnlyPerm_freshPerm hv) x
  rw [h.readable, false_or]
  rfl

/-- A read succeeds exactly when it is in bounds and each of its bytes has READ (R111). -/
theorem Memory.read_succeeds_iff (cfg : Config) (m : Memory) (a n : Nat) :
    (∃ bs, m.read cfg a n = .ok bs) ↔
      a + n ≤ m.size ∧ ∀ x, a ≤ x → x < a + n → has cfg (m.perm cfg x) .read = true := by
  have hspan : m.allHave cfg .read a n = true ↔
      ∀ x, a ≤ x → x < a + n → has cfg (m.perm cfg x) .read = true := by
    rw [Memory.allHave_iff]
    refine ⟨fun h x hlow hhigh => ?_, fun h k hk => h _ (by omega) (by omega)⟩
    rw [← Nat.add_sub_cancel' hlow]
    exact h _ (by omega)
  rw [← hspan]
  obtain ⟨hout, e⟩ | ⟨-, hno, e⟩ | ⟨hb, hall, e⟩ := Memory.read_cases cfg m a n
  · simp [e, hout]
  · simp [e, hno]
  · simp [e, hb, hall]

end Sys2Proof.Machine
end

/-! ### The statements about the memory ports -/

section
open Sys2Proof Sys2Proof.Machine

/-- Settles O31: the two faults leave the state, and a write that succeeds stores its bytes and promotes its
span. -/
theorem writeIsAllOrNothingAndPromotes : Obligations.WriteIsAllOrNothingAndPromotes := by
  unfold Obligations.WriteIsAllOrNothingAndPromotes
  intro cfg s a bs
  refine ⟨fun hout => ?_, fun hb hno => ?_, fun hb hall => ?_⟩
  · exact transact_write_of_error (Memory.write_out_of_bounds cfg hout)
  · exact transact_write_of_error (Memory.write_unwritable hb ((Memory.allHave_eq_false_iff ..).mpr hno))
  · have hok := Memory.write_eq_ok hb ((Memory.allHave_iff ..).mpr hall)
    obtain ⟨-, -, hsize, -, hperm⟩ := Memory.write_ok hok
    obtain ⟨hin, hout⟩ := Memory.write_frame hok
    refine ⟨_, transact_write_of_ok hok, hsize, hin, hout, fun hraw k hk => ?_, fun hnone k _ => ?_⟩
    · exact (hperm _).trans (if_pos ⟨(Memory.someHave_iff ..).mpr hraw, by omega, by omega⟩)
    · rw [hperm, (Memory.someHave_eq_false_iff ..).mpr hnone, if_neg fun hc => Bool.noConfusion hc.1]

/-- Settles O34: a refusal or the write's fault leaves the state; otherwise the write stores the bytes and the
declaration sets the flags over the same span. -/
theorem loadSegmentWritesThenDeclares : Obligations.LoadSegmentWritesThenDeclares := by
  unfold Obligations.LoadSegmentWritesThenDeclares
  intro cfg s va flags bs
  refine ⟨fun hbad => ?_, fun hf hout => ?_, fun hf hb hno => ?_, fun hf hb hall => ?_⟩
  · exact transact_load_of_refused (Memory.loadSegment_of_bad_flags cfg s.mem va bs hbad)
  · exact transact_load_of_fault (Memory.loadSegment_of_write_error hf (Memory.write_out_of_bounds cfg hout))
  · exact transact_load_of_fault (Memory.loadSegment_of_write_error hf
      (Memory.write_unwritable hb ((Memory.allHave_eq_false_iff ..).mpr hno)))
  · have hw := Memory.write_eq_ok hb ((Memory.allHave_iff ..).mpr hall)
    obtain ⟨-, -, hsize, -⟩ := Memory.write_ok hw
    obtain ⟨hin, hout⟩ := Memory.write_frame hw
    have hl := Memory.loadSegment_of_write hf hw
    have hperm := Memory.loadSegment_perm hl
    refine ⟨_, transact_load_of_next hl, (Memory.mapPerms_size ..).trans hsize, fun k hk => ⟨?_, ?_⟩,
      fun x hx => ⟨?_, ?_⟩⟩
    · exact (Memory.byte_mapPerms ..).trans (hin k hk)
    · exact (hperm _).trans (if_pos ⟨by omega, by omega⟩)
    · exact (Memory.byte_mapPerms ..).trans (hout x hx).1
    · exact (hperm _).trans (if_neg (by omega))

/-- Settles O36, port by port. -/
theorem failedPortChangesNothing : Obligations.FailedPortChangesNothing := by
  unfold Obligations.FailedPortChangesNothing
  exact fun _ _ _ => transact_state_of_failed

/-- Settles O37: the write leaves its span readable and holding its bytes. -/
theorem writeThenReadReturnsTheBytes : Obligations.WriteThenReadReturnsTheBytes := by
  unfold Obligations.WriteThenReadReturnsTheBytes
  intro cfg m m' a bs hv _ h hspan
  obtain ⟨hb, -, hsize, -⟩ := Memory.write_ok h
  rw [Memory.read_eq_ok (hsize ▸ hb) (Memory.allHave_read_of_write hv h hspan), Memory.bytes_of_write h]

/-- Settles O40, by whether the transaction has a span and whether it succeeded on it. -/
theorem permissionStateMachine : Obligations.PermissionStateMachine := by
  unfold Obligations.PermissionStateMachine
  exact fun cfg _ s x => transact_perm cfg s x

/-- Settles O42: by induction on the writes, a byte has READ exactly when a write in bounds covers it. -/
theorem readableExactlyWhenCovered : Obligations.ReadableExactlyWhenCovered := by
  unfold Obligations.ReadableExactlyWhenCovered
  intro cfg memSize entry ws a n hv
  have hsize := transactAll_writes_size cfg ws (State.construct memSize entry)
  have hread := has_read_transactAll_writes hv memSize entry ws
  refine (Memory.read_succeeds_iff ..).trans (and_congr ?_ (forall₃_congr fun x _ _ => hread x))
  exact iff_of_eq (congrArg (a + n ≤ ·) hsize)

/-- Settles O30, by the three answers of a read. -/
theorem readReturnsBytesOrFaults : Obligations.ReadReturnsBytesOrFaults := by
  unfold Obligations.ReadReturnsBytesOrFaults
  intro cfg s a n
  refine ⟨fun hout => ?_, fun hb hno => ?_, fun hb hall => ?_⟩
  · exact transact_read_of_error (Memory.read_out_of_bounds cfg hout)
  · exact transact_read_of_error (Memory.read_unreadable hb ((Memory.allHave_eq_false_iff ..).mpr hno))
  · exact ⟨_, transact_read_of_ok (Memory.read_eq_ok hb ((Memory.allHave_iff ..).mpr hall)),
      Memory.bytes_length .., Memory.bytes_getElem cfg s.mem a n⟩

/-- Settles O32: promotion bit by bit. -/
theorem promotionTouchesOnlyReadAndRaw : Obligations.PromotionTouchesOnlyReadAndRaw := by
  unfold Obligations.PromotionTouchesOnlyReadAndRaw
  intro cfg p hv
  refine ⟨by simp [has_promoted hv], by simp [has_promoted hv], fun i hi hread hraw => ?_⟩
  simp [promoted_getLsbD cfg p hi, flagBit, hread, hraw]

/-- Settles O33, by the two answers of a declaration. -/
theorem declareSetsExactlyTheMask : Obligations.DeclareSetsExactlyTheMask := by
  unfold Obligations.DeclareSetsExactlyTheMask
  intro cfg s a n mask
  refine ⟨fun hout => transact_declare_of_error (Memory.declare_out_of_bounds cfg mask hout), fun hb => ?_⟩
  have hok := Memory.declare_eq_ok (cfg := cfg) mask hb
  obtain ⟨-, hsize, hbyte, hperm⟩ := Memory.declare_ok hok
  exact ⟨_, transact_declare_of_ok hok, hsize, hbyte,
    fun x hlow hhigh => (hperm x).trans (if_pos ⟨hlow, hhigh⟩),
    fun x hx => (hperm x).trans (if_neg (by omega))⟩

/-- Settles O35: over no bytes every permission test passes and every change is none. -/
theorem zeroLengthRanges : Obligations.ZeroLengthRanges := by
  unfold Obligations.ZeroLengthRanges
  intro cfg m a mask
  exact ⟨fun hb => ⟨Memory.read_eq_ok hb rfl, Memory.write_eq_ok hb rfl, Memory.declare_eq_ok mask hb⟩,
    fun hout => ⟨Memory.read_out_of_bounds cfg hout, Memory.write_out_of_bounds cfg hout,
      Memory.declare_out_of_bounds cfg mask hout⟩⟩

end

/-! ### The slices of words -/

section
namespace Sys2Proof

/-- Two words that agree from bit `n` up have the same slices there. -/
theorem extractLsb'_eq_of_toNat_div_eq {w w' : InsnWord} {n lo : Nat}
    (h : w.toNat / 2 ^ n = w'.toNat / 2 ^ n) (hlo : n ≤ lo) (len : Nat) :
    w.extractLsb' lo len = w'.extractLsb' lo len := by
  have hcut : ∀ v : InsnWord, v.toNat >>> lo = v.toNat / 2 ^ n / 2 ^ (lo - n) := fun v => by
    rw [Nat.shiftRight_eq_div_pow, Nat.div_div_eq_div_mul, ← pow_add, Nat.add_sub_cancel' hlo]
  apply BitVec.eq_of_toNat_eq
  rw [BitVec.extractLsb'_toNat, BitVec.extractLsb'_toNat, hcut w, hcut w', h]

/-- Where a fragment was placed, the word holds it. -/
@[simp]
theorem extractLsb'_place_same {k pos : Nat} (f : BitVec k) (h : pos + k ≤ 32) :
    (place f pos).extractLsb' pos k = f := by
  refine BitVec.eq_of_getLsbD_eq fun i hi => ?_
  have hword : pos + i < 32 := by omega
  rw [BitVec.getLsbD_extractLsb', place_getLsbD, Nat.add_sub_cancel_left]
  simp [hi, hword]

/-- A placed fragment leaves the slices beside it 0. -/
@[simp]
theorem extractLsb'_place_of_disjoint {k pos lo len : Nat} (f : BitVec k)
    (h : lo + len ≤ pos ∨ pos + k ≤ lo) : (place f pos).extractLsb' lo len = 0 := by
  refine BitVec.eq_of_getLsbD_eq fun i hi => ?_
  rw [BitVec.getLsbD_extractLsb', place_getLsbD]
  rcases h with hbelow | habove
  · have : lo + i < pos := by omega
    simp [this]
  · have : k ≤ lo + i - pos := by omega
    simp [BitVec.getLsbD_of_ge _ _ this]

/-- The I immediate is the sign extension of one slice (R84). -/
theorem decodeI_eq_slices (w : InsnWord) :
    decodeI w = { imm := sar32 (shl32 (place (w.extractLsb' 20 12) 0) 20) 20,
                  rs1 := rs1Field w, funct3 := funct3Field w, rd := rdField w } := by
  have himm : sar32 w 20 = sar32 (shl32 (place (w.extractLsb' 20 12) 0) 20) 20 := by
    refine BitVec.eq_of_getLsbD_eq fun i hi => ?_
    rw [sar32_getLsbD _ _ _ hi, sar32_shl32_getLsbD _ (by decide) hi, place_slice_getLsbD _ _ _ _ (by omega)]
    grind
  rw [decodeI, himm]

/-- The U immediate is one slice, left in its place (R87). -/
theorem decodeU_eq_slices (w : InsnWord) :
    decodeU w = { imm := place (w.extractLsb' 12 20) 12, rd := rdField w } := by
  have himm : (decodeU w).imm = place (w.extractLsb' 12 20) 12 := by
    refine BitVec.eq_of_getLsbD_eq fun i hi => ?_
    rw [decodeU_imm_getLsbD w hi, place_slice_getLsbD _ _ _ _ hi]
    grind
  rw [← himm, decodeU]

end Sys2Proof
end

/-! ### The immediates, put together from their slices -/

section
namespace Sys2Proof

/-- A signed number of `32 - n` bits is the sign extension of every pattern with its low `32 - n` bits. -/
theorem sar32_shl32_eq_of_getLsbD {p imm : InsnWord} {n : Nat} (hn : n < 32)
    (hlow : -2 ^ (31 - n) ≤ imm.toInt) (hhigh : imm.toInt < 2 ^ (31 - n))
    (hbits : ∀ i < 32 - n, p.getLsbD i = imm.getLsbD i) : sar32 (shl32 p n) n = imm :=
  (sar32_shl32_congr hn hbits).trans (sar32_shl32_eq_self hn hlow hhigh)

/-- The pieces of an I immediate restore it (R84). -/
theorem sar32_shl32_slicesI {imm : BitVec 32} (hlow : -2048 ≤ imm.toInt) (hhigh : imm.toInt ≤ 2047) :
    sar32 (shl32 (place (imm.extractLsb' 0 12) 0) 20) 20 = imm := by
  refine sar32_shl32_eq_of_getLsbD (by decide) hlow (by omega) fun i hi => ?_
  rw [place_slice_getLsbD _ _ _ _ (by omega)]
  grind

/-- The pieces of an S immediate restore it (R85). -/
theorem sar32_shl32_slicesS {imm : BitVec 32} (hlow : -2048 ≤ imm.toInt) (hhigh : imm.toInt ≤ 2047) :
    sar32 (shl32 (place (imm.extractLsb' 5 7) 5 ||| place (imm.extractLsb' 0 5) 0) 20) 20 = imm := by
  refine sar32_shl32_eq_of_getLsbD (by decide) hlow (by omega) fun i hi => ?_
  have h32 : i < 32 := by omega
  simp only [BitVec.getLsbD_or, place_slice_getLsbD _ _ _ _ h32]
  grind

/-- The pieces of a B immediate restore it: the bit that is not encoded is 0 (R86). -/
theorem sar32_shl32_slicesB {imm : BitVec 32} (hlow : -4096 ≤ imm.toInt) (hhigh : imm.toInt ≤ 4094)
    (heven : 2 ∣ imm.toInt) :
    sar32 (shl32 (place (imm.extractLsb' 12 1) 12 ||| place (imm.extractLsb' 11 1) 11 |||
      place (imm.extractLsb' 5 6) 5 ||| place (imm.extractLsb' 1 4) 1) 19) 19 = imm := by
  have hzero := (two_dvd_toInt_iff imm).mp heven
  refine sar32_shl32_eq_of_getLsbD (by decide) hlow (by omega) fun i hi => ?_
  have h32 : i < 32 := by omega
  simp only [BitVec.getLsbD_or, place_slice_getLsbD _ _ _ _ h32]
  grind

/-- The piece of a U immediate restores it: the bits below it are 0 (R87). -/
theorem place_sliceU {imm : BitVec 32} (hdvd : 4096 ∣ imm.toNat) :
    place (imm.extractLsb' 12 20) 12 = imm := by
  apply BitVec.eq_of_toNat_eq
  have himm := imm.isLt
  rw [place, BitVec.toNat_shiftLeft, BitVec.toNat_setWidth, BitVec.extractLsb'_toNat,
    Nat.shiftRight_eq_div_pow, Nat.shiftLeft_eq]
  omega

end Sys2Proof
end

/-! ### The layouts and their decoders

The slices that a decoder cuts are the ones its layout fills, so each decoder returns what was placed (R149);
the J shape has `decodeJ_encodeJ`. -/

section
namespace Sys2Proof

theorem extractLsb'_encodeI_imm (f : IFields) (op : BitVec 7) :
    (encodeI f op).extractLsb' 20 12 = f.imm.extractLsb' 0 12 := by
  simp [encodeI, BitVec.extractLsb'_or]

theorem rawS_encodeS (f : SFields) (op : BitVec 7) :
    rawS (encodeS f op) = place (f.imm.extractLsb' 5 7) 5 ||| place (f.imm.extractLsb' 0 5) 0 := by
  simp [rawS, encodeS, BitVec.extractLsb'_or]

theorem rawB_encodeB (f : BFields) (op : BitVec 7) :
    rawB (encodeB f op) = place (f.imm.extractLsb' 12 1) 12 ||| place (f.imm.extractLsb' 11 1) 11 |||
      place (f.imm.extractLsb' 5 6) 5 ||| place (f.imm.extractLsb' 1 4) 1 := by
  simp [rawB, encodeB, BitVec.extractLsb'_or]

theorem extractLsb'_encodeU_imm (f : UFields) (op : BitVec 7) :
    (encodeU f op).extractLsb' 12 20 = f.imm.extractLsb' 12 20 := by
  simp [encodeU, BitVec.extractLsb'_or]

theorem decodeR_encodeR {f : RFields} (op : BitVec 7) (hrs2 : isGeneral f.rs2 = true)
    (hrs1 : isGeneral f.rs1 = true) (hrd : isGeneral f.rd = true) : decodeR (encodeR f op) = f := by
  simp [decodeR, funct7Field, rs2Field, rs1Field, funct3Field, rdField, encodeR, BitVec.extractLsb'_or,
    regId_regBits hrs2, regId_regBits hrs1, regId_regBits hrd]

theorem decodeI_encodeI {f : IFields} (op : BitVec 7) (hrs1 : isGeneral f.rs1 = true)
    (hrd : isGeneral f.rd = true) (hlow : -2048 ≤ f.imm.toInt) (hhigh : f.imm.toInt ≤ 2047) :
    decodeI (encodeI f op) = f := by
  rw [decodeI_eq_slices, extractLsb'_encodeI_imm, sar32_shl32_slicesI hlow hhigh]
  simp [rs1Field, funct3Field, rdField, encodeI, BitVec.extractLsb'_or, regId_regBits hrs1, regId_regBits hrd]

theorem decodeS_encodeS {f : SFields} (op : BitVec 7) (hrs2 : isGeneral f.rs2 = true)
    (hrs1 : isGeneral f.rs1 = true) (hlow : -2048 ≤ f.imm.toInt) (hhigh : f.imm.toInt ≤ 2047) :
    decodeS (encodeS f op) = f := by
  rw [decodeS, rawS_encodeS, sar32_shl32_slicesS hlow hhigh]
  simp [rs2Field, rs1Field, funct3Field, encodeS, BitVec.extractLsb'_or, regId_regBits hrs2, regId_regBits hrs1]

theorem decodeB_encodeB {f : BFields} (op : BitVec 7) (hrs2 : isGeneral f.rs2 = true)
    (hrs1 : isGeneral f.rs1 = true) (hlow : -4096 ≤ f.imm.toInt) (hhigh : f.imm.toInt ≤ 4094)
    (heven : 2 ∣ f.imm.toInt) : decodeB (encodeB f op) = f := by
  rw [decodeB, rawB_encodeB, sar32_shl32_slicesB hlow hhigh heven]
  simp [rs2Field, rs1Field, funct3Field, encodeB, BitVec.extractLsb'_or, regId_regBits hrs2, regId_regBits hrs1]

theorem decodeU_encodeU {f : UFields} (op : BitVec 7) (hrd : isGeneral f.rd = true)
    (hdvd : 4096 ∣ f.imm.toNat) : decodeU (encodeU f op) = f := by
  rw [decodeU_eq_slices, extractLsb'_encodeU_imm, place_sliceU hdvd]
  simp [rdField, encodeU, BitVec.extractLsb'_or, regId_regBits hrd]

end Sys2Proof
end

/-! ### The statements about the field decoders -/

section
open Sys2Proof

/-- Settles O57, shape by shape: each slice of the word holds the fragment placed there, and the pieces of the
immediate, sign extended, restore it. -/
theorem fieldsRoundTrip : Obligations.FieldsRoundTrip := by
  unfold Obligations.FieldsRoundTrip
  exact ⟨fun _ op => decodeR_encodeR op, fun _ op => decodeI_encodeI op, fun _ op => decodeS_encodeS op,
    fun _ op => decodeB_encodeB op, fun _ op => decodeU_encodeU op,
    fun _ op hrd hlow hhigh heven => decodeJ_encodeJ op hrd heven hlow hhigh⟩

/-- Settles O56: every decoder reads the word through slices that start at bit 7 or above. -/
theorem opcodeBitsReachNoField : Obligations.OpcodeBitsReachNoField := by
  unfold Obligations.OpcodeBitsReachNoField
  intro w w' h
  have hslice : ∀ lo len, 7 ≤ lo → w.extractLsb' lo len = w'.extractLsb' lo len :=
    fun _ len hlo => extractLsb'_eq_of_toNat_div_eq h hlo len
  simp [decodeR, decodeI_eq_slices, decodeS, rawS, decodeB, rawB, decodeU_eq_slices, decodeJ, rawJ,
    funct7Field, rs2Field, rs1Field, funct3Field, rdField, hslice]

end

/-! ### The masked matcher over any table -/

section
namespace Sys2Proof

theorem Entry.hits_iff {H : Type} (e : Entry H) (w : InsnWord) :
    e.hits w = true ↔ w &&& e.mask = e.value := by
  simp [Entry.hits]

/-- A word under the mask has no bit outside it, so it is never a value that has one (R161 (c)). -/
theorem Entry.value_within_mask_of_hits {H : Type} {e : Entry H} {w : InsnWord} (h : e.hits w = true) :
    e.value &&& ~~~ e.mask = 0 := by
  rw [← (e.hits_iff w).mp h, BitVec.and_assoc]
  simp

/-- The matcher is the library's search for the first entry that the word hits. -/
theorem matchWord_eq_find? {H : Type} (table : List (Entry H)) (w : InsnWord) :
    matchWord table w = (table.find? (·.hits w)).map Entry.handler := by
  induction table with
  | nil => rfl
  | cons e rest ih =>
    rw [matchWord_cons, List.find?_cons]
    cases e.hits w with
    | true => rfl
    | false => exact ih

theorem matchWord_eq_some_iff {H : Type} (table : List (Entry H)) (w : InsnWord) (h : H) :
    matchWord table w = some h ↔
      ∃ (before : List (Entry H)) (e : Entry H) (after : List (Entry H)), table = before ++ e :: after ∧
        w &&& e.mask = e.value ∧ e.handler = h ∧ ∀ d ∈ before, w &&& d.mask ≠ d.value := by
  simp only [matchWord_eq_find?, Option.map_eq_some_iff, List.find?_eq_some_iff_append, Entry.hits_iff,
    Bool.not_eq_true', ← Bool.not_eq_true]
  constructor
  · rintro ⟨e, ⟨hit, before, after, split, hmiss⟩, hh⟩
    exact ⟨before, e, after, split, hit, hh, hmiss⟩
  · rintro ⟨before, e, after, split, hit, hh, hmiss⟩
    exact ⟨e, ⟨hit, before, after, split, hmiss⟩, hh⟩

theorem matchWord_eq_none_iff {H : Type} (table : List (Entry H)) (w : InsnWord) :
    matchWord table w = none ↔ ∀ e ∈ table, w &&& e.mask ≠ e.value := by
  simp [matchWord_eq_find?, Entry.hits_iff]

/-- The later part of a table answers only where the earlier part does not (R162). -/
theorem matchWord_append {H : Type} (before after : List (Entry H)) (w : InsnWord) :
    matchWord (before ++ after) w = (matchWord before w).or (matchWord after w) := by
  simp [matchWord_eq_find?, List.find?_append, Option.map_or]

/-- An entry that the word does not hit, or hits only behind an earlier hit, can be left out. -/
theorem matchWord_remove {H : Type} {before after : List (Entry H)} {e : Entry H} {w : InsnWord}
    (h : e.hits w = true → ∃ d ∈ before, d.hits w = true) :
    matchWord (before ++ e :: after) w = matchWord (before ++ after) w := by
  rw [matchWord_append, matchWord_append, matchWord_cons]
  by_cases hit : e.hits w = true
  · obtain ⟨d, hd, hdw⟩ := h hit
    have answered : matchWord before w ≠ none := fun hn =>
      (matchWord_eq_none_iff before w).mp hn d hd ((d.hits_iff w).mp hdw)
    obtain ⟨handler, hsome⟩ := Option.ne_none_iff_exists'.mp answered
    rw [hsome, Option.some_or, Option.some_or]
  · rw [if_neg hit]

end Sys2Proof
end

/-! ### The statements about the matcher -/

section
open Sys2Proof

/-- Settles O50: the matcher is the search for the first hit, whose answer splits the table there. -/
theorem firstMatchWins : Obligations.FirstMatchWins := by
  unfold Obligations.FirstMatchWins
  exact fun _ table w => ⟨matchWord_eq_some_iff table w, matchWord_eq_none_iff table w⟩

/-- Settles O51: a value with a bit outside its mask is never hit, and a repeated entry is hit only where the
earlier one is. -/
theorem inertEntriesChangeNothing : Obligations.InertEntriesChangeNothing := by
  unfold Obligations.InertEntriesChangeNothing
  intro H before after e w h
  refine matchWord_remove fun hit => ?_
  obtain houtside | ⟨d, hd, hmask, hvalue⟩ := h
  · exact absurd (Entry.value_within_mask_of_hits hit) houtside
  · exact ⟨d, hd, by rwa [Entry.hits, hmask, hvalue]⟩

end

/-! ### Construction, and the register file behind its ports -/

section
namespace Sys2Proof.Machine

/-- A machine just constructed is running, so it has no halt to explain (R175, R197). -/
theorem State.construct_haltExplained (cfg : Config) (n e : Word) :
    (State.construct n e).HaltExplained cfg := by
  intro f hf
  rw [State.construct_status] at hf
  cases hf

/-- The invariant of the machine holds right after construction (R175). -/
theorem State.construct_inv (cfg : Config) (n e : Word) : (State.construct n e).Inv cfg where
  memory := State.construct_wf cfg n e
  zero := State.construct_reg n e zeroId
  halt := State.construct_haltExplained cfg n e

/-- The port `set` replaces one slot, whichever it is (R177). -/
theorem transact_set_reg (cfg : Config) (s : State) (i j : RegId) (v : Word) :
    (transact cfg (.set i v) s).state.reg j = if i = j then v else s.reg j :=
  regGet_regSet s.regs i j v

/-- The port `advance_pc` adds the instruction width to slot 32 (R178). -/
theorem transact_advancePc_reg (cfg : Config) (s : State) (j : RegId) :
    (transact cfg .advancePc s).state.reg j = if pcId = j then s.pc + 4 else s.reg j :=
  regGet_advancePc s.regs j

/-- The guarded write of register 0 writes nothing (R179, D13). -/
@[simp] theorem writeRd_zero (rf : RegFile) (v : Word) : writeRd rf zeroId v = rf := if_pos rfl

end Sys2Proof.Machine
end

/-! ### The statements about construction and the register file -/

section
open Sys2Proof Sys2Proof.Machine

/-- Settles O19: a reset is a construction. -/
theorem constructMeetsInvariant : Obligations.ConstructMeetsInvariant := by
  unfold Obligations.ConstructMeetsInvariant
  exact ⟨State.construct_inv, State.construct_inv reference Config.memSize Config.entry⟩

/-- Settles O48: `get` replies with the state it read, and the two writing ports change the register file
alone, as its reading laws say. -/
theorem registerPorts : Obligations.RegisterPorts := by
  unfold Obligations.RegisterPorts
  intro cfg s i v
  have hpc : (transact cfg .advancePc s).state.pc = s.pc + 4 :=
    (transact_advancePc_reg cfg s pcId).trans (if_pos rfl)
  have hother : ∀ j, j ≠ pcId → (transact cfg .advancePc s).state.reg j = s.reg j := fun j hj =>
    (transact_advancePc_reg cfg s j).trans (if_neg hj.symm)
  exact ⟨rfl, rfl, fun j => transact_set_reg cfg s i j v, rfl, hpc, hother, rfl⟩

/-- Settles O49, by what a register reads after the guarded write. -/
theorem guardedWrite : Obligations.GuardedWrite := by
  unfold Obligations.GuardedWrite
  intro rf rd r v
  refine ⟨fun hrd => ?_, fun hr => ?_, writeRd_zero rf v⟩
  · rw [regGet_writeRd, if_pos ⟨hrd, rfl⟩]
  · rw [regGet_writeRd, if_neg fun h => hr h.2.symm]

end

/-! ### The fetch, under each of its conditions -/

section
namespace Sys2Proof.Machine

/-- The permission test of a fetch passes exactly when each of the four bytes has READ, and EXEC too where it
is checked (R121). -/
theorem Memory.fetchable_iff (cfg : Config) (m : Memory) (a : Nat) :
    m.fetchable cfg a = true ↔ ∀ k < 4, has cfg (m.perm cfg (a + k)) .read = true ∧
      (cfg.fetchCheckExec = true → has cfg (m.perm cfg (a + k)) .exec = true) := by
  rw [Memory.fetchable, Bool.and_eq_true, Memory.allHave_iff]
  cases hexec : cfg.fetchCheckExec with
  | false => simp
  | true => simp [Memory.allHave_iff, forall₂_and]

/-- A byte that lacks READ, or EXEC where it is checked, fails the permission test of a fetch (R121). -/
theorem Memory.fetchable_eq_false {cfg : Config} {m : Memory} {a : Nat}
    (h : ∃ k < 4, has cfg (m.perm cfg (a + k)) .read = false ∨
      (cfg.fetchCheckExec = true ∧ has cfg (m.perm cfg (a + k)) .exec = false)) :
    m.fetchable cfg a = false := by
  refine Bool.eq_false_iff.mpr fun hpass => ?_
  obtain ⟨k, hk, hno⟩ := h
  obtain ⟨hread, hexec⟩ := (Memory.fetchable_iff cfg m a).mp hpass k hk
  obtain hnoRead | ⟨hcheck, hnoExec⟩ := hno
  · simp [hread] at hnoRead
  · simp [hexec hcheck] at hnoExec

/-- A fetch beyond memory is a bounds fault (R191). -/
theorem Memory.fetch_out_of_bounds (cfg : Config) {m : Memory} {a : Nat} (h : m.size < a + 4) :
    m.fetch cfg a = .error (.bounds a 4) := by
  simp [Memory.fetch, Memory.inBounds, h]

/-- A fetch in bounds that fails the permission test is a permission fault (R191). -/
theorem Memory.fetch_unpermitted {cfg : Config} {m : Memory} {a : Nat} (hb : a + 4 ≤ m.size)
    (hf : m.fetchable cfg a = false) : m.fetch cfg a = .error (.permission .fetch a 4) := by
  simp [Memory.fetch, Memory.inBounds, hb, hf]

/-- A fetch answers bytes exactly when it is in bounds and permitted, and they are those of memory (R191). -/
theorem Memory.fetch_eq_ok_iff (cfg : Config) (m : Memory) (a : Nat) (bs : List Byte) :
    m.fetch cfg a = .ok bs ↔ a + 4 ≤ m.size ∧ m.fetchable cfg a = true ∧ bs = m.bytes cfg a 4 := by
  constructor
  · intro h
    obtain ⟨-, e⟩ | ⟨-, -, e⟩ | ⟨hb, hf, e⟩ := Memory.fetch_cases cfg m a <;> rw [h] at e <;> cases e
    exact ⟨hb, hf, rfl⟩
  · rintro ⟨hb, hf, rfl⟩
    exact Memory.fetch_eq_ok hb hf

theorem Memory.bytes_four (cfg : Config) (m : Memory) (a : Nat) :
    m.bytes cfg a 4 = [m.byte cfg a, m.byte cfg (a + 1), m.byte cfg (a + 2), m.byte cfg (a + 3)] := rfl

/-- A span whose bytes are those of a list, one by one, reads as the list. -/
theorem Memory.bytes_eq_of_byte_eq {cfg : Config} {m : Memory} {a : Nat} {bs : List Byte}
    (h : ∀ (k : Nat) (hk : k < bs.length), m.byte cfg (a + k) = bs[k]) : m.bytes cfg a bs.length = bs :=
  List.ext_getElem (Memory.bytes_length ..) fun k _ hk => (Memory.bytes_getElem ..).trans (h k hk)

end Sys2Proof.Machine
end

/-! ### The step and the engine, under each of their conditions -/

section
namespace Sys2Proof.Machine

theorem stepWith_of_halted (cfg : Config) {s : State} {f : Fault} (hs : s.status = .halted f) :
    stepWith cfg s = .fault f := by
  simp [stepWith, hs]

theorem stepWith_of_fetch_error {cfg : Config} {s : State} {f : Fault} (hs : s.status = .running)
    (hf : s.mem.fetch cfg s.pc.toNat = .error f) : stepWith cfg s = .next (s.halt f) := by
  simp [stepWith, hs, hf]

theorem stepWith_of_no_instr {cfg : Config} {s : State} {bs : List Byte} (hs : s.status = .running)
    (hf : s.mem.fetch cfg s.pc.toNat = .ok bs)
    (hd : decodeInstr cfg.table (wordOfBytes cfg.fetchOrder bs) = none) :
    stepWith cfg s = .next (s.halt (.decode (wordOfBytes cfg.fetchOrder bs) s.pc.toNat)) := by
  simp [stepWith, hs, hf, hd]

theorem stepWith_of_instr {cfg : Config} {s : State} {bs : List Byte} {i : Instr} (hs : s.status = .running)
    (hf : s.mem.fetch cfg s.pc.toNat = .ok bs)
    (hd : decodeInstr cfg.table (wordOfBytes cfg.fetchOrder bs) = some i) : stepWith cfg s = exec i s := by
  simp [stepWith, hs, hf, hd]

/-- A running machine steps to a next state: a fault halts it, and no instruction refuses (R193, R196). -/
theorem exists_stepWith_eq_next (cfg : Config) {s : State} (hs : s.status = .running) :
    ∃ t, stepWith cfg s = .next t := by
  obtain ⟨f, hhalt, -⟩ | ⟨f, -, -, e⟩ | ⟨bs, -, -, -, e⟩ | ⟨bs, i, -, -, -, e⟩ := stepWith_cases cfg s
  · rw [hs] at hhalt
    cases hhalt
  · exact ⟨_, e⟩
  · exact ⟨_, e⟩
  · obtain ⟨t, ht, -, -⟩ := exec_next i s
    exact ⟨t, e.trans ht⟩

/-- The port `step` ends in the next state where there is one (R190). -/
theorem transact_step_state_of_next {cfg : Config} {s t : State} (h : stepWith cfg s = .next t) :
    (transact cfg .step s).state = t := by
  simp only [transact, State.stepPort, h]
  split <;> rfl

/-- The port `step` leaves a halted machine as it is (R196). -/
theorem transact_step_state_of_halted (cfg : Config) {s : State} {f : Fault} (hs : s.status = .halted f) :
    (transact cfg .step s).state = s := by
  simp only [transact, State.stepPort, stepWith_of_halted cfg hs]

/-- The engine where a handler is matched (R193, R194). -/
theorem engineStep_of_match {H : Type} {cfg : Config} {table : List (Entry H)} {run : H → HandlerFn}
    {s : State} {bs : List Byte} {h : H} {rf : RegFile} {returned : Word} (hs : s.status = .running)
    (hf : s.mem.fetch cfg s.pc.toNat = .ok bs)
    (hm : matchWord table (wordOfBytes cfg.fetchOrder bs) = some h)
    (hrun : run h s.regs (wordOfBytes cfg.fetchOrder bs) s.pc = (rf, returned)) :
    engineStep cfg table run s = .next { s with regs := advanceOrRedirect s.pc returned rf } := by
  simp [engineStep, hs, hf, hm, State.execute, hrun]

/-- The instruction a handler reads from a word runs as the handler does on that word (R164, R193). -/
theorem exec_handler_instr (h : Handler) (w : InsnWord) (s : State) :
    exec (h.instr w) s = .next (s.execute fun rf pre => runHandler h rf w pre) := by
  cases h with
  | jal => rfl

/-- The step is the handler engine: both fetch and match alike, and what they then run is the same (R190). -/
theorem stepWith_eq_engineStep (cfg : Config) (s : State) :
    stepWith cfg s = engineStep cfg cfg.table runHandler s := by
  rw [stepWith, engineStep]
  cases s.status with
  | halted f => rfl
  | running =>
    cases s.mem.fetch cfg s.pc.toNat with
    | error f => rfl
    | ok bs =>
      simp only [decodeInstr]
      cases matchWord cfg.table (wordOfBytes cfg.fetchOrder bs) with
      | none => rfl
      | some h => exact exec_handler_instr h _ s

end Sys2Proof.Machine
end

/-! ### Jump-and-link, register by register -/

section
namespace Sys2Proof.Machine

/-- The link register of a well-formed jump is no program counter (R92). -/
theorem rd_ne_pcId_of_jal_wf {rd : RegId} {imm : BitVec 32} (h : (Instr.jal rd imm).wf = true) :
    rd ≠ pcId := by
  rintro rfl
  simp [Instr.wf, isGeneral] at h

/-- JAL lands on its target, and falls through on offset 0 (R200, R201). -/
theorem jal_pc_by_offset (rd : RegId) (imm : BitVec 32) (s : State) :
    (s.execute (jalEffect rd imm)).pc = if imm = 0 then s.pc + 4 else s.pc + imm.signExtend 64 := by
  rw [jal_pc]
  simp only [jumpTarget_eq_self_iff]
  split
  · next h => rw [(jumpTarget_eq_self_iff s.pc imm).mpr h]
  · rfl

/-- JAL puts `P + 4` into a link register other than register 0 (R200). -/
theorem jal_link {rd : RegId} (imm : BitVec 32) (s : State) (hrd : rd ≠ pcId) (h0 : rd ≠ zeroId) :
    (s.execute (jalEffect rd imm)).reg rd = s.pc + 4 :=
  (jal_reg rd imm s hrd).trans (if_pos ⟨h0, rfl⟩)

/-- JAL changes no general register but its link register, and drops a link to register 0 (R200, D13). -/
theorem jal_frame {rd r : RegId} (imm : BitVec 32) (s : State) (hr : r ≠ pcId) (h : r ≠ rd ∨ rd = zeroId) :
    (s.execute (jalEffect rd imm)).reg r = s.reg r :=
  (jal_reg rd imm s hr).trans (if_neg fun hlink => h.elim (fun hne => hne hlink.2.symm) hlink.1)

/-- JAL always moves the program counter: where the target is `P` itself, the engine adds 4 (R195, R255). -/
theorem jal_pc_ne (rd : RegId) (imm : BitVec 32) (s : State) :
    (s.execute (jalEffect rd imm)).pc ≠ s.pc := by
  rw [jal_pc]
  split
  · next h => simp [h]
  · assumption

/-- The handler of JAL leaves its target in slot 32 (R193, R200). -/
theorem jalEffect_pc (rd : RegId) (imm : BitVec 32) (rf : RegFile) (pre : Word) :
    regGet (jalEffect rd imm rf pre).1 pcId = (jalEffect rd imm rf pre).2 :=
  regGet_regSet_same _ pcId _

/-- The handler of JAL leaves register 0 alone (R179, D13). -/
theorem jalEffect_zero (rd : RegId) (imm : BitVec 32) (rf : RegFile) (pre : Word) :
    regGet (jalEffect rd imm rf pre).1 zeroId = regGet rf zeroId := by
  rw [jalEffect, regGet_regSet_ne _ _ (by decide), regGet_writeRd, if_neg fun h => h.1 h.2]

end Sys2Proof.Machine
end

/-! ### Running an encoded instruction -/

section
namespace Sys2Proof

/-- Bytes that decode and leave nothing over form a word that decodes (R80, R81). -/
theorem decodeInstr_of_decodeBytes {table : List (Entry Handler)} {order : ByteOrder} {bs : List Byte}
    {i : Instr} (h : decodeBytes table order bs = .ok (i, [])) :
    decodeInstr table (wordOfBytes order bs) = some i := by
  unfold decodeBytes at h
  split at h
  · cases h
  · dsimp only at h
    split at h
    · cases h
    · next j hj =>
      injection h with h
      obtain ⟨rfl, hrest⟩ := Prod.mk.inj h
      have htake : bs.take insnWidth = bs := List.take_of_length_le (List.drop_eq_nil_iff.mp hrest)
      rwa [htake] at hj

end Sys2Proof

namespace Sys2Proof.Machine

/-- Readable bytes of a well-formed instruction at the program counter run as that instruction (R190, R191). -/
theorem step_of_encoded_bytes {i : Instr} {s : State} (hwf : i.wf = true) (hs : s.status = .running)
    (hb : s.pc.toNat + 4 ≤ s.mem.size) (hread : s.mem.allHave reference .read s.pc.toNat 4 = true)
    (hbytes : s.mem.bytes reference s.pc.toNat 4 = encodeBytes i) : step s = exec i s := by
  have hfetchable := (Memory.fetchable_of_no_exec_check (cfg := reference) rfl s.mem s.pc.toNat).trans hread
  have hfetch : s.mem.fetch reference s.pc.toNat = .ok (encodeBytes i) :=
    hbytes ▸ Memory.fetch_eq_ok hb hfetchable
  have hword : wordOfBytes reference.fetchOrder (encodeBytes i) = encode i := wordOfBytes_bytesOfWord _ _
  exact stepWith_of_instr hs hfetch (hword ▸ decodeInstr_encode hwf)

theorem encodeBytes_length (i : Instr) : (encodeBytes i).length = 4 := bytesOfWord_length ..

/-- Fresh memory is writable, so a segment in bounds with accepted flags loads: its bytes and its flags lie over
its span (R41, R115). -/
theorem loadSegment_on_construct {cfg : Config} (hv : cfg.Valid) {memSize entry : Word} {va : Nat} {fl : Byte}
    {bs : List Byte} (hf : segmentFlagsOk cfg fl = true) (hb : va + bs.length ≤ memSize.toNat) :
    ∃ m, (transact cfg (.loadSegment va fl bs) (State.construct memSize entry)).state =
        { State.construct memSize entry with mem := m } ∧ m.size = memSize.toNat ∧
      m.bytes cfg va bs.length = bs ∧ ∀ k < bs.length, m.perm cfg (va + k) = fl := by
  have hwritable : ∀ k < bs.length,
      has cfg ((State.construct memSize entry).mem.perm cfg (va + k)) .write = true := fun k _ => by
    simp [has_freshPerm hv]
  obtain ⟨-, -, -, hload⟩ := loadSegmentWritesThenDeclares cfg (State.construct memSize entry) va fl bs
  obtain ⟨m, hreply, hsize, hspan, -⟩ := hload hf hb hwritable
  exact ⟨m, by rw [hreply], hsize, Memory.bytes_eq_of_byte_eq fun k hk => (hspan k hk).1,
    fun k hk => (hspan k hk).2⟩

end Sys2Proof.Machine
end

/-! ### The statements about the execution engine -/

section
open Sys2Proof Sys2Proof.Machine

/-- Settles O7: the fetch answers the bytes, and their word decodes to the instruction. -/
theorem encodedInstructionRuns : Obligations.EncodedInstructionRuns := by
  unfold Obligations.EncodedInstructionRuns
  exact fun i s hwf hs hb hread => step_of_encoded_bytes hwf hs hb ((Memory.allHave_iff ..).mpr hread)

/-- Settles O8, by the two tests of a fetch. -/
theorem fetchSucceedsExactlyWhen : Obligations.FetchSucceedsExactlyWhen := by
  unfold Obligations.FetchSucceedsExactlyWhen
  intro cfg m a bs
  rw [Memory.fetch_eq_ok_iff, Memory.fetchable_iff, Memory.bytes_four]

/-- Settles O9: the step halts on the fetch's fault, which is that of the first test that fails. -/
theorem stepHaltsOnFetchFault : Obligations.StepHaltsOnFetchFault := by
  unfold Obligations.StepHaltsOnFetchFault
  intro cfg s hs
  refine ⟨fun hout => ?_, fun hb hno => ?_⟩
  · exact stepWith_of_fetch_error hs (Memory.fetch_out_of_bounds cfg hout)
  · exact stepWith_of_fetch_error hs (Memory.fetch_unpermitted hb (Memory.fetchable_eq_false hno))

/-- Settles O13: a step that halted took a fault, for an executed jump leaves the machine running. -/
theorem faultingStepChangesOnlyStatus : Obligations.FaultingStepChangesOnlyStatus := by
  unfold Obligations.FaultingStepChangesOnlyStatus
  intro cfg s t f h ht
  obtain ⟨hs, ⟨g, -, rfl⟩ | ⟨bs, rd, imm, -, -, rfl⟩⟩ := stepWith_next h
  · obtain rfl : g = f := Status.halted.inj ht
    rfl
  · rw [State.execute_status, hs] at ht
    cases ht

/-- Settles O16: a step that leaves the machine running executed a jump, and a jump moves the program counter. -/
theorem noJumpToSelf : Obligations.NoJumpToSelf := by
  unfold Obligations.NoJumpToSelf
  intro cfg s t h ht
  obtain ⟨-, ⟨f, -, rfl⟩ | ⟨bs, rd, imm, -, -, rfl⟩⟩ := stepWith_next h
  · cases ht
  · exact jal_pc_ne rd imm s

/-- Settles O21, stage by stage of the two pipelines. -/
theorem stepIsTheHandlerEngine : Obligations.StepIsTheHandlerEngine := by
  unfold Obligations.StepIsTheHandlerEngine
  exact stepWith_eq_engineStep

/-- Settles O28: the load leaves the jump's bytes readable at the entry, so the step runs the jump on a machine
whose registers are as constructed. -/
theorem loadThenExecuteOneJump : Obligations.LoadThenExecuteOneJump := by
  unfold Obligations.LoadThenExecuteOneJump
  intro memSize entry flags rd imm hwf hflags hread hb
  have hlen := encodeBytes_length (.jal rd imm)
  obtain ⟨m, hload, hsize, hbytes, hperm⟩ := loadSegment_on_construct (entry := entry) (by decide) hflags
    (hlen ▸ hb)
  rw [hlen] at hbytes hperm
  have hpc : State.pc { State.construct memSize entry with mem := m } = entry := State.construct_pc memSize entry
  have hreg : ∀ r : RegId, r ≠ pcId → State.reg { State.construct memSize entry with mem := m } r = 0 :=
    fun r hr => (State.construct_reg memSize entry r).trans (if_neg hr)
  have hstep := step_of_encoded_bytes hwf rfl (by rw [hpc, hsize]; exact hb)
    ((Memory.allHave_iff ..).mpr fun k hk => by rw [hpc, hperm k hk]; exact hread) (by rw [hpc]; exact hbytes)
  refine ⟨_, rfl, ?_⟩
  rw [transactAll, hload, transactAll, transact_step_state_of_next hstep, transactAll]
  refine ⟨rfl, ?_, fun h0 => ?_, fun r hr h => ?_⟩
  · rw [jal_pc_by_offset, hpc]
  · rw [jal_link imm _ (rd_ne_pcId_of_jal_wf hwf) h0, hpc]
  · rw [jal_frame imm _ hr h, hreg r hr]

/-- Settles O1: a non-zero offset leads to another address, so the engine does not advance. -/
theorem jalJumpsAndLinks : Obligations.JalJumpsAndLinks := by
  unfold Obligations.JalJumpsAndLinks
  intro rd imm s hwf himm
  exact ⟨_, rfl, (jal_pc_by_offset rd imm s).trans (if_neg himm), jal_link imm s (rd_ne_pcId_of_jal_wf hwf),
    fun h0 => jal_frame imm s (by decide) (.inr h0)⟩

/-- Settles O2: offset 0 leads to the jump's own address, so the engine advances. -/
theorem jalZeroOffsetFallsThrough : Obligations.JalZeroOffsetFallsThrough := by
  unfold Obligations.JalZeroOffsetFallsThrough
  intro rd s hwf
  exact ⟨_, rfl, (jal_pc_by_offset rd 0 s).trans (if_pos rfl), jal_link 0 s (rd_ne_pcId_of_jal_wf hwf),
    fun h0 => jal_frame 0 s (by decide) (.inr h0)⟩

/-- Settles O3: JAL writes the register file alone, and there only the link and the program counter. -/
theorem jalFrame : Obligations.JalFrame := by
  unfold Obligations.JalFrame
  intro rd imm s _
  exact ⟨_, rfl, fun r hr h => jal_frame imm s hr h, rfl, rfl, fun _ _ => rfl, fun _ _ => rfl⟩

/-- Settles O5, handler by handler. -/
theorem handlersKeepTheirContract : Obligations.HandlersKeepTheirContract := by
  unfold Obligations.HandlersKeepTheirContract
  intro h rf w pre
  cases h with
  | jal => exact ⟨jalEffect_pc _ _ rf pre, jalEffect_zero _ _ rf pre⟩

/-- Settles O6: a successful decode leaves only `exec` to run, from the word as from its bytes. -/
theorem stepRunsDecodedInstruction : Obligations.StepRunsDecodedInstruction := by
  unfold Obligations.StepRunsDecodedInstruction
  exact ⟨fun _ _ _ _ => stepWith_of_instr,
    fun _ _ _ hs hf hd => stepWith_of_instr hs hf (decodeInstr_of_decodeBytes hd)⟩

/-- Settles O10: a word that no entry matches decodes to no instruction. -/
theorem stepHaltsOnUnmatchedWord : Obligations.StepHaltsOnUnmatchedWord := by
  unfold Obligations.StepHaltsOnUnmatchedWord
  intro cfg s bs hs hf hno
  exact stepWith_of_no_instr hs hf ((decodeInstr_eq_none_iff ..).mpr ((matchWord_eq_none_iff ..).mpr hno))

/-- Settles O11: a halted machine answers its fault, and the port then keeps the state. -/
theorem haltedMachineMakesNoStep : Obligations.HaltedMachineMakesNoStep := by
  unfold Obligations.HaltedMachineMakesNoStep
  exact fun cfg _ _ hs => ⟨stepWith_of_halted cfg hs, transact_step_state_of_halted cfg hs⟩

/-- Settles O12, by the cases of a step. -/
theorem runningMachineAlwaysSteps : Obligations.RunningMachineAlwaysSteps := by
  unfold Obligations.RunningMachineAlwaysSteps
  exact fun cfg _ hs => exists_stepWith_eq_next cfg hs

/-- Settles O22: the engine's last stage touches slot 32 alone, by whether the returned address is `P`. -/
theorem engineAdvancesOrRedirects : Obligations.EngineAdvancesOrRedirects := by
  unfold Obligations.EngineAdvancesOrRedirects
  intro H cfg table run s bs h hs hf hm rf returned hrun
  have hpc := regGet_advanceOrRedirect_pc s.pc returned rf
  exact ⟨_, engineStep_of_match hs hf hm hrun, fun hsame => hpc.trans (if_pos hsame),
    fun hother => hpc.trans (if_neg hother), fun r hr => regGet_advanceOrRedirect_ne _ _ rf hr.symm, rfl, hs⟩

/-- Settles O23, from O22: what the handler left in slot 32 is known in each case. -/
theorem brokenHandlersLandWhereR195Says : Obligations.BrokenHandlersLandWhereR195Says := by
  unfold Obligations.BrokenHandlersLandWhereR195Says
  intro H cfg table run s bs h rf returned hs hf hm hrun
  obtain ⟨t, ht, hadvance, hredirect, -⟩ :=
    engineAdvancesOrRedirects H cfg table run s bs h hs hf hm rf returned hrun
  refine ⟨t, ht, fun hsame hleft => ?_, fun hother hleft => ?_, fun v hsame hwrote => ?_⟩
  · rw [hadvance hsame, hleft]
  · rw [hredirect hother, hleft]
  · rw [hadvance hsame, hwrote]

end

/-! ### The first step after construction, the placed word, and the EXEC bit -/

section
namespace Sys2Proof.Machine

/-- Two memories of one size that hold the same bytes and pass the same permission test fetch alike (R191). -/
theorem Memory.fetch_congr {cfg : Config} {m m' : Memory} {a : Nat} (hsize : m.size = m'.size)
    (hbyte : ∀ x, m.byte cfg x = m'.byte cfg x) (hpass : m.fetchable cfg a = m'.fetchable cfg a) :
    m.fetch cfg a = m'.fetch cfg a := by
  have hbytes : m.bytes cfg a insnWidth = m'.bytes cfg a insnWidth := List.map_congr_left fun _ _ => hbyte _
  rw [Memory.fetch, Memory.fetch, Memory.inBounds, Memory.inBounds, hsize, hpass, hbytes]

/-- Where EXEC is not checked, two memories whose permission bytes agree on READ fetch under the same test
(R121, R260). -/
theorem Memory.fetchable_congr_of_no_exec_check {cfg : Config} (hexec : cfg.fetchCheckExec = false)
    {m m' : Memory} (hread : ∀ x, has cfg (m.perm cfg x) .read = has cfg (m'.perm cfg x) .read) (a : Nat) :
    m.fetchable cfg a = m'.fetchable cfg a := by
  simp only [Memory.fetchable_of_no_exec_check hexec, Memory.allHave, hread]

/-- What an effect makes of the registers is a function of the registers (R193, R194). -/
theorem State.execute_regs_congr {s s' : State} (hregs : s.regs = s'.regs) (eff : Effect) :
    (s.execute eff).regs = (s'.execute eff).regs := by
  simp only [State.execute_regs, State.pc, State.reg, hregs]

/-- The step from two states ends in equal registers and status, or stops on one fault. -/
def StepsAlike (cfg : Config) (s s' : State) : Prop :=
  (∃ t t', stepWith cfg s = .next t ∧ stepWith cfg s' = .next t' ∧ t.regs = t'.regs ∧ t.status = t'.status) ∨
  (∃ f, stepWith cfg s = .fault f ∧ stepWith cfg s' = .fault f)

/-- A step looks at memory through its fetch alone (R190). -/
theorem stepsAlike_of_fetch_eq {cfg : Config} {s s' : State} (hregs : s.regs = s'.regs)
    (hstatus : s.status = s'.status) (hfetch : s.mem.fetch cfg s.pc.toNat = s'.mem.fetch cfg s.pc.toNat) :
    StepsAlike cfg s s' := by
  have hpc : s.pc = s'.pc := congrArg (regGet · pcId) hregs
  obtain ⟨f, hs, e⟩ | ⟨f, hs, hf, e⟩ | ⟨bs, hs, hf, hd, e⟩ | ⟨bs, ⟨rd, imm⟩, hs, hf, hd, e⟩ :=
    stepWith_cases cfg s <;> rw [hstatus] at hs
  · exact .inr ⟨f, e, stepWith_of_halted cfg hs⟩
  all_goals rw [hfetch, hpc] at hf
  · exact .inl ⟨_, _, e, stepWith_of_fetch_error hs hf, hregs, rfl⟩
  · exact .inl ⟨_, _, e, stepWith_of_no_instr hs hf hd, hregs, by rw [State.halt_status, State.halt_status, hpc]⟩
  · exact .inl ⟨_, _, e, stepWith_of_instr hs hf hd, State.execute_regs_congr hregs _, hstatus⟩

/-- The fetch of a placed word answers its bytes: they are in memory, with READ and EXEC (R115, R191). -/
theorem State.withInsn_fetch (cfg : Config) (s : State) (w : InsnWord) :
    (s.withInsn cfg w).mem.fetch cfg s.pc.toNat = .ok (bytesOfWord cfg.fetchOrder w) := by
  have hbytes : (s.withInsn cfg w).mem.bytes cfg s.pc.toNat (bytesOfWord cfg.fetchOrder w).length =
      bytesOfWord cfg.fetchOrder w := Memory.bytes_eq_of_byte_eq fun k hk => by
    rw [State.withInsn, Memory.byte_mapPerms, Memory.byte_store_in]
  rw [bytesOfWord_length] at hbytes
  refine (Memory.fetch_eq_ok_iff ..).mpr ⟨?_, (Memory.fetchable_iff ..).mpr fun k hk => ?_, hbytes.symm⟩
  · simp [State.withInsn]
  · have hspan : s.pc.toNat ≤ s.pc.toNat + k ∧ s.pc.toNat + k < s.pc.toNat + insnWidth :=
      ⟨Nat.le_add_right _ k, Nat.add_lt_add_left hk _⟩
    simp [State.withInsn, Memory.perm_mapPerms, hspan, has_eq_getLsbD, flagMask_getLsbD]

/-- The step after a word is placed runs the instruction it decodes to (R190). -/
theorem stepWith_withInsn {cfg : Config} {w : InsnWord} {i : Instr} (s : State)
    (hd : decodeInstr cfg.table w = some i) : stepWith cfg (s.withInsn cfg w) = exec i (s.withInsn cfg w) :=
  stepWith_of_instr rfl (State.withInsn_fetch cfg s w) ((wordOfBytes_bytesOfWord cfg.fetchOrder w).symm ▸ hd)

/-- Cutting a table word into bytes and decoding these is decoding the word (R54, R97). -/
theorem decodeTableWord_eq_decodeInstr (nbits w : Nat) :
    decodeTableWord nbits w = decodeInstr tableSrc (tableWord nbits w) := by
  have hlen := bytesOfWord_length .littleEndian (tableWord nbits w)
  simp only [decodeTableWord, decodeBytes, hlen, Nat.lt_irrefl, if_false, List.take_of_length_le hlen.le,
    wordOfBytes_bytesOfWord]
  cases decodeInstr tableSrc (tableWord nbits w) <;> rfl

/-- Fresh memory has no READ, so nothing of it can be fetched (R41, R121). -/
theorem State.construct_not_fetchable {cfg : Config} (hv : cfg.Valid) (memSize entry : Word) (a : Nat) :
    (State.construct memSize entry).mem.fetchable cfg a = false :=
  Memory.fetchable_eq_false ⟨0, by decide, .inl (by simp [has_freshPerm hv])⟩

end Sys2Proof.Machine
end

/-! ### The statements about reset and hazards -/

section
open Sys2Proof Sys2Proof.Machine

/-- Settles O20: READ is another bit than EXEC, so the two states fetch alike, and a step looks at memory through
its fetch alone. -/
theorem execBitIsInertInReference : Obligations.ExecBitIsInertInReference := by
  unfold Obligations.ExecBitIsInertInReference
  intro cfg s s' hv hexec hregs hstatus hsize hbyte hperm
  have hread : ∀ x, has cfg (s.mem.perm cfg x) .read = has cfg (s'.mem.perm cfg x) .read := fun x => by
    rw [has_eq_getLsbD, has_eq_getLsbD]
    exact hperm x _ (flagBit cfg .read).isLt (flagBit_ne hv (g := .exec) (by decide))
  exact stepsAlike_of_fetch_eq hregs hstatus
    (Memory.fetch_congr hsize hbyte (Memory.fetchable_congr_of_no_exec_check hexec hread _))

/-- Settles O27: the fetch at the entry fails its bounds test, or else finds no READ. -/
theorem firstStepWithNothingLoadedHalts : Obligations.FirstStepWithNothingLoadedHalts := by
  unfold Obligations.FirstStepWithNothingLoadedHalts
  intro cfg memSize entry hv
  have hpc := State.construct_pc memSize entry
  refine ⟨fun hin => stepWith_of_fetch_error rfl ?_, fun hout => stepWith_of_fetch_error rfl ?_⟩
  · rw [hpc]
    exact Memory.fetch_unpermitted hin (State.construct_not_fetchable hv memSize entry _)
  · rw [hpc]
    exact Memory.fetch_out_of_bounds cfg hout

/-- Settles O29: the fetch answers the placed word's bytes, and the word decodes to the instruction. -/
theorem placedWordRuns : Obligations.PlacedWordRuns := by
  unfold Obligations.PlacedWordRuns
  intro s nbits w i hd
  exact stepWith_withInsn (cfg := reference) s (decodeTableWord_eq_decodeInstr nbits w ▸ hd)

end
